-- ==== Sys2Proof/Word.lean ====
section
/-! DEFINITION. The words of the core: a byte is the addressable unit (20_memory.md R60), a word is 32 bits
(20_memory.md R61), and every sum wraps modulo 2^32 (00_scope.md R9), which is `BitVec` addition. -/

namespace Sys2Proof

/-- The 8-bit byte, the unit of addressing (R60). -/
abbrev Byte := BitVec 8

/-- A 32-bit value: a register, an address, an ARM-state instruction (R20, R60, R90). -/
abbrev Word := BitVec 32

end Sys2Proof
end

