-- ==== Sys2Proof/Config.lean ====
section
/-! DEFINITION. What the spec fixes once for the machine (00_scope.md R8) and the one free value of the model.
The environment's parameters (`irq_schedule`, `abort_req`) are not here: they are data in State. -/

namespace Sys2Proof

/-- The two byte orders 20_memory.md R69 describes. -/
inductive ByteOrder where
  | little
  | big
  deriving DecidableEq, Repr

/-- `BYTE_ORDER` (R64, R69): the spec decides little-endian, D1 (assumption log 12). -/
def Config.byteOrder : ByteOrder := .little

/-- `PC_READ_OFFSET` (R28): what an instruction at `A` reads from R15, less `A`; the spec's D2 (assumption log 13). -/
def Config.pcReadOffset : Word := 8#32

/-- `VECTOR_BASE` (R66): the vector table stands at address zero. -/
def Config.vectorBase : Word := 0x00000000#32

/-- The free values: a stream of words nothing is known of. The model draws the next one, and advances
`State.draws`, where the spec leaves a value unspecified and the machine goes on: every register, saved status
and upper status bit after a Reset taken in a run (R44, U14; log 6), the link value of an entry from THUMB
state, which `step` does not make (R253, D27; log 9), and the bytes an aborted write leaves (R67, U22; log 24). -/
opaque Config.freeWord : Nat → Word

end Sys2Proof
end

