-- ==== Sys2Proof/Syntax.lean ====
section
/-! DEFINITION. The instructions: one constructor for each row of spec/opcode_table.json, with the fields of
30_encoding.md R95. A field the spec gives a meaning or a polarity-free name is kept under the name of the
format figure (R96). -/

namespace Sys2Proof

/-- The fifteen conditions of 30_encoding.md R92, in the order of their numbers 0 to 14. -/
inductive Cond where
  | eq | ne | cs | cc | mi | pl | vs | vc | hi | ls | ge | lt | gt | le | al
  deriving DecidableEq, Repr

/-- The sixteen register numbers an instruction can name (10_state.md R20). -/
inductive Reg where
  | r0 | r1 | r2 | r3 | r4 | r5 | r6 | r7 | r8 | r9 | r10 | r11 | r12 | r13 | r14 | r15
  deriving DecidableEq, Repr

/-! The second names of 10_state.md R22 (a software convention: no rule of the machine reads them). -/

abbrev Reg.a1 : Reg := .r0
abbrev Reg.a2 : Reg := .r1
abbrev Reg.a3 : Reg := .r2
abbrev Reg.a4 : Reg := .r3
abbrev Reg.v1 : Reg := .r4
abbrev Reg.v2 : Reg := .r5
abbrev Reg.v3 : Reg := .r6
abbrev Reg.v4 : Reg := .r7
abbrev Reg.v5 : Reg := .r8
abbrev Reg.v6 : Reg := .r9
abbrev Reg.v7 : Reg := .r10
abbrev Reg.v8 : Reg := .r11
abbrev Reg.ip : Reg := .r12
abbrev Reg.sp : Reg := .r13
abbrev Reg.lr : Reg := .r14
abbrev Reg.pc : Reg := .r15

/-- One instruction of ARM state. The constructors stand in the order of spec/opcode_table.json; the flag
fields keep the letters of the format figure (30_encoding.md R96), the first register named stands highest in
the word. -/
inductive Instr where
  /-- F5, branch and exchange (R102, R132). -/
  | bx (cond : Cond) (rn : Reg)
  /-- F2, multiply (R100, R171): the source gives no operation. -/
  | multiply (cond : Cond) (a s : Bool) (rd rn rs rm : Reg)
  /-- F3, long multiply (R100, R171): the source gives no operation. -/
  | longMultiply (cond : Cond) (u a s : Bool) (rdHi rdLo rs rm : Reg)
  /-- F4, swap (R101, R197): the source gives no operation. -/
  | swap (cond : Cond) (b : Bool) (rn rd rm : Reg)
  /-- F6, halfword transfer with register offset (R103, R195): the source gives no operation. -/
  | halfwordRegister (cond : Cond) (p u w l : Bool) (rn rd : Reg) (s h : Bool) (rm : Reg)
  /-- F7, halfword transfer with immediate offset (R103, R195): the source gives no operation. -/
  | halfwordImmediate (cond : Cond) (p u w l : Bool) (rn rd : Reg) (offsetHi : BitVec 4) (s h : Bool)
      (offsetLo : BitVec 4)
  /-- The exit instruction `MOVS PC, R14` (R168). -/
  | movsPcR14 (cond : Cond)
  /-- The exit instruction `SUBS PC, R14, #4` (R169). -/
  | subsPcR14By4 (cond : Cond)
  /-- The exit instruction `SUBS PC, R14, #8` (R169). -/
  | subsPcR14By8 (cond : Cond)
  /-- F1, every other data-processing word (R99, R170): the source gives no operation code. -/
  | dataProcessing (cond : Cond) (i : Bool) (opcode : BitVec 4) (s : Bool) (rn rd : Reg) (operand2 : BitVec 12)
  /-- F9, undefined instruction codes (R105, R241); the two fields are the don't-care bits 24:5 and 3:0. -/
  | undefined (cond : Cond) (high : BitVec 20) (low : BitVec 4)
  /-- F8, word or byte transfer (R104, R194): the source gives no operation. -/
  | wordTransfer (cond : Cond) (i p u b w l : Bool) (rn rd : Reg) (offset : BitVec 12)
  /-- F10, block transfer STM or LDM (R106, R196): the source gives no operation. -/
  | blockTransfer (cond : Cond) (p u s w l : Bool) (rn : Reg) (registerList : BitVec 16)
  /-- F11 with L = 0, branch under any condition (R107, R130). -/
  | b (cond : Cond) (rel : BitVec 24)
  /-- F11 with L = 1, branch with link under any condition (R107, R131). -/
  | bl (cond : Cond) (rel : BitVec 24)
  /-- F12, coprocessor data transfer (R108, R221): the source gives no operation. -/
  | coprocessorDataTransfer (cond : Cond) (p u n w l : Bool) (rn : Reg) (crd cpNum : BitVec 4) (offset : BitVec 8)
  /-- F13, coprocessor data operation (R108, R222): the source gives no operation. -/
  | coprocessorDataOperation (cond : Cond) (cpOpcode crn crd cpNum : BitVec 4) (cp : BitVec 3) (crm : BitVec 4)
  /-- F14, coprocessor register transfer (R108, R223): the source gives no operation. -/
  | coprocessorRegisterTransfer (cond : Cond) (cpOpcode : BitVec 3) (l : Bool) (crn : BitVec 4) (rd : Reg)
      (cpNum : BitVec 4) (cp : BitVec 3) (crm : BitVec 4)
  /-- F15, software interrupt (R109, R133); the processor ignores the 24 bits. -/
  | swi (cond : Cond) (ignored : BitVec 24)
  /-- The conditional rows of B (R115, R136): B with the condition field set to the suffix's code. -/
  | beq (rel : BitVec 24)
  | bne (rel : BitVec 24)
  | bcs (rel : BitVec 24)
  | bcc (rel : BitVec 24)
  | bmi (rel : BitVec 24)
  | bpl (rel : BitVec 24)
  | bvs (rel : BitVec 24)
  | bvc (rel : BitVec 24)
  | bhi (rel : BitVec 24)
  | bls (rel : BitVec 24)
  | bge (rel : BitVec 24)
  | blt (rel : BitVec 24)
  | bgt (rel : BitVec 24)
  | ble (rel : BitVec 24)
  | bal (rel : BitVec 24)
  /-- The conditional rows of BL (R115, R136): BL with the condition field set to the suffix's code. -/
  | bleq (rel : BitVec 24)
  | blne (rel : BitVec 24)
  | blcs (rel : BitVec 24)
  | blcc (rel : BitVec 24)
  | blmi (rel : BitVec 24)
  | blpl (rel : BitVec 24)
  | blvs (rel : BitVec 24)
  | blvc (rel : BitVec 24)
  | blhi (rel : BitVec 24)
  | blls (rel : BitVec 24)
  | blge (rel : BitVec 24)
  | bllt (rel : BitVec 24)
  | blgt (rel : BitVec 24)
  | blle (rel : BitVec 24)
  | blal (rel : BitVec 24)
  /-- Any word whose condition field is 0b1111 (R93); the field is bits 27:0. -/
  | conditionReserved (bits : BitVec 28)
  deriving DecidableEq, Repr

end Sys2Proof
end

