-- ==== Sys2Proof/WellFormed.lean ====
section
/-! DEFINITION. Which terms of `Instr` are instructions of a format: a term whose fields would spell a word that
an earlier line of the decode order (30_encoding.md R98) claims is ill-formed. Most formats hold no such term. -/

namespace Sys2Proof

/-- The data-processing fields that lines 1 to 8 of R98 claim before line 9 does: BX, multiply, long multiply,
swap, the two halfword transfers, and the three exit instructions, in that order. -/
def dataProcessingClaimed (i : Bool) (opcode : BitVec 4) (s : Bool) (rn rd : Reg) (operand2 : BitVec 12) : Bool :=
  let low8 := operand2.extractLsb' 4 8
  let low4 := operand2.extractLsb' 4 4
  let half := operand2.getLsbD 7 && operand2.getLsbD 4 && (operand2.getLsbD 6 || operand2.getLsbD 5)
  (!i && opcode == 0b1001#4 && !s && rn == .r15 && rd == .r15 && low8 == 0xF1#8)
    || (!i && opcode.extractLsb' 1 3 == 0b000#3 && low4 == 0b1001#4)
    || (!i && opcode.extractLsb' 2 2 == 0b01#2 && low4 == 0b1001#4)
    || (!i && opcode.extractLsb' 2 2 == 0b10#2 && !opcode.getLsbD 0 && !s && low8 == 0x09#8)
    || (!i && !opcode.getLsbD 1 && operand2.extractLsb' 8 4 == 0#4 && half)
    || (!i && opcode.getLsbD 1 && half)
    || (!i && opcode == 0b1101#4 && s && rn == .r0 && rd == .r15 && operand2 == 0x00E#12)
    || (i && opcode == 0b0010#4 && s && rn == .r14 && rd == .r15 && (operand2 == 0x004#12 || operand2 == 0x008#12))

/-- The instruction is one its own format spells: a halfword transfer has `S H` other than 00 (R98 lines 5, 6), a
word transfer with I = 1 has bit 4 clear (line 10 takes the others), and a data-processing word is claimed by no
earlier line. -/
def Instr.wellFormed : Instr → Bool
  | .halfwordRegister _ _ _ _ _ _ _ s h _ => s || h
  | .halfwordImmediate _ _ _ _ _ _ _ _ s h _ => s || h
  | .wordTransfer _ i _ _ _ _ _ _ _ offset => !(i && offset.getLsbD 4)
  | .dataProcessing _ i opcode s rn rd operand2 => !dataProcessingClaimed i opcode s rn rd operand2
  | .bx .. | .multiply .. | .longMultiply .. | .swap .. | .movsPcR14 .. | .subsPcR14By4 .. | .subsPcR14By8 ..
  | .undefined .. | .blockTransfer .. | .b .. | .bl .. | .coprocessorDataTransfer .. | .coprocessorDataOperation ..
  | .coprocessorRegisterTransfer .. | .swi .. | .beq _ | .bne _ | .bcs _ | .bcc _ | .bmi _ | .bpl _ | .bvs _ | .bvc _
  | .bhi _ | .bls _ | .bge _ | .blt _ | .bgt _ | .ble _ | .bal _ | .bleq _ | .blne _ | .blcs _ | .blcc _ | .blmi _
  | .blpl _ | .blvs _ | .blvc _ | .blhi _ | .blls _ | .blge _ | .bllt _ | .blgt _ | .blle _ | .blal _
  | .conditionReserved _ => true

end Sys2Proof
end

