-- ==== Sys2Proof/Decode.lean ====
section
/-! DEFINITION. The decoder: any four bytes are an instruction, by the decode order of 30_encoding.md R98, each line a
mask and a value as the spec writes it; after it the encoder, written from the formats of R95. -/

namespace Sys2Proof

/-! ### Bytes of a word (20_memory.md R64, R69) -/

/-- The value whose bits `[8k+7:8k]` are the k-th byte of the list (R69, little-endian). -/
def joinLittle : List Byte → Word
  | [] => 0#32
  | b :: bs => (joinLittle bs) <<< 8 ||| b.setWidth 32

/-- The low `n` bytes of a word, bits 7:0 first (R69, little-endian). -/
def splitLittle : Nat → Word → List Byte
  | 0, _ => []
  | n + 1, w => w.setWidth 8 :: splitLittle n (w >>> 8)

/-- The value the bytes at rising addresses stand for (R69). -/
def joinBytes (order : ByteOrder) (bs : List Byte) : Word :=
  match order with
  | .little => joinLittle bs
  | .big => joinLittle bs.reverse

/-- The low `n` bytes of a word in the order of rising addresses (R69). -/
def splitBytes (order : ByteOrder) (n : Nat) (w : Word) : List Byte :=
  match order with
  | .little => splitLittle n w
  | .big => (splitLittle n w).reverse

/-! ### Fields -/

/-- The 4-bit number of a register (10_state.md R20). -/
def Reg.num : Reg → BitVec 4
  | .r0 => 0#4 | .r1 => 1#4 | .r2 => 2#4 | .r3 => 3#4 | .r4 => 4#4 | .r5 => 5#4 | .r6 => 6#4 | .r7 => 7#4
  | .r8 => 8#4 | .r9 => 9#4 | .r10 => 10#4 | .r11 => 11#4 | .r12 => 12#4 | .r13 => 13#4 | .r14 => 14#4 | .r15 => 15#4

/-- The register a 4-bit field names. -/
def Reg.ofNum (n : BitVec 4) : Reg :=
  match n.toNat with
  | 0 => .r0 | 1 => .r1 | 2 => .r2 | 3 => .r3 | 4 => .r4 | 5 => .r5 | 6 => .r6 | 7 => .r7
  | 8 => .r8 | 9 => .r9 | 10 => .r10 | 11 => .r11 | 12 => .r12 | 13 => .r13 | 14 => .r14 | _ => .r15

/-- The number of a condition (30_encoding.md R92). -/
def Cond.code : Cond → BitVec 4
  | .eq => 0#4 | .ne => 1#4 | .cs => 2#4 | .cc => 3#4 | .mi => 4#4 | .pl => 5#4 | .vs => 6#4 | .vc => 7#4
  | .hi => 8#4 | .ls => 9#4 | .ge => 10#4 | .lt => 11#4 | .gt => 12#4 | .le => 13#4 | .al => 14#4

/-- The condition a 4-bit field names (R92); 0b1111 names none (R93). -/
def Cond.ofCode (n : BitVec 4) : Option Cond :=
  match n.toNat with
  | 0 => some .eq | 1 => some .ne | 2 => some .cs | 3 => some .cc | 4 => some .mi | 5 => some .pl | 6 => some .vs
  | 7 => some .vc | 8 => some .hi | 9 => some .ls | 10 => some .ge | 11 => some .lt | 12 => some .gt
  | 13 => some .le | 14 => some .al | _ => none

/-- The register named by the four bits of `w` from bit `lo` up. -/
def regAt (w : Word) (lo : Nat) : Reg := Reg.ofNum (w.extractLsb' lo 4)

/-- `w & mask == value`, the test of R98. -/
def maskedEq (w mask value : Word) : Bool := (w &&& mask) == value

/-! ### The conditional rows of B and BL -/

/-- The table row of a B word under condition `c` (R115, R136): the most specific row first (R98; assumption log 1). -/
def branchRow (c : Cond) (rel : BitVec 24) : Instr :=
  match c with
  | .eq => .beq rel
  | .ne => .bne rel
  | .cs => .bcs rel
  | .cc => .bcc rel
  | .mi => .bmi rel
  | .pl => .bpl rel
  | .vs => .bvs rel
  | .vc => .bvc rel
  | .hi => .bhi rel
  | .ls => .bls rel
  | .ge => .bge rel
  | .lt => .blt rel
  | .gt => .bgt rel
  | .le => .ble rel
  | .al => .bal rel

/-- The table row of a BL word under condition `c` (R115, R136; assumption log 1). -/
def linkRow (c : Cond) (rel : BitVec 24) : Instr :=
  match c with
  | .eq => .bleq rel
  | .ne => .blne rel
  | .cs => .blcs rel
  | .cc => .blcc rel
  | .mi => .blmi rel
  | .pl => .blpl rel
  | .vs => .blvs rel
  | .vc => .blvc rel
  | .hi => .blhi rel
  | .ls => .blls rel
  | .ge => .blge rel
  | .lt => .bllt rel
  | .gt => .blgt rel
  | .le => .blle rel
  | .al => .blal rel

/-- The row the decoder answers with for the words of `i`: for B and BL the conditional row, else `i` itself. -/
def Instr.row : Instr → Instr
  | .b c rel => branchRow c rel
  | .bl c rel => linkRow c rel
  | i => i

/-! ### The decoder -/

/-- Lines 1 to 18 of R98 for a word whose condition field is `c`. -/
def decodeBody (c : Cond) (w : Word) : Instr :=
  if maskedEq w 0x0FFFFFF0#32 0x012FFF10#32 then .bx c (regAt w 0)
  else if maskedEq w 0x0FC000F0#32 0x00000090#32 then
    .multiply c (w.getLsbD 21) (w.getLsbD 20) (regAt w 16) (regAt w 12) (regAt w 8) (regAt w 0)
  else if maskedEq w 0x0F8000F0#32 0x00800090#32 then
    .longMultiply c (w.getLsbD 22) (w.getLsbD 21) (w.getLsbD 20) (regAt w 16) (regAt w 12) (regAt w 8) (regAt w 0)
  else if maskedEq w 0x0FB00FF0#32 0x01000090#32 then
    .swap c (w.getLsbD 22) (regAt w 16) (regAt w 12) (regAt w 0)
  else if maskedEq w 0x0E400F90#32 0x00000090#32 && (w.getLsbD 6 || w.getLsbD 5) then
    .halfwordRegister c (w.getLsbD 24) (w.getLsbD 23) (w.getLsbD 21) (w.getLsbD 20) (regAt w 16) (regAt w 12)
      (w.getLsbD 6) (w.getLsbD 5) (regAt w 0)
  else if maskedEq w 0x0E400090#32 0x00400090#32 && (w.getLsbD 6 || w.getLsbD 5) then
    .halfwordImmediate c (w.getLsbD 24) (w.getLsbD 23) (w.getLsbD 21) (w.getLsbD 20) (regAt w 16) (regAt w 12)
      (w.extractLsb' 8 4) (w.getLsbD 6) (w.getLsbD 5) (w.extractLsb' 0 4)
  else if maskedEq w 0x0FFFFFFF#32 0x01B0F00E#32 then .movsPcR14 c
  else if maskedEq w 0x0FFFFFFF#32 0x025EF004#32 then .subsPcR14By4 c
  else if maskedEq w 0x0FFFFFFF#32 0x025EF008#32 then .subsPcR14By8 c
  else if maskedEq w 0x0C000000#32 0x00000000#32 then
    .dataProcessing c (w.getLsbD 25) (w.extractLsb' 21 4) (w.getLsbD 20) (regAt w 16) (regAt w 12) (w.extractLsb' 0 12)
  else if maskedEq w 0x0E000010#32 0x06000010#32 then .undefined c (w.extractLsb' 5 20) (w.extractLsb' 0 4)
  else if maskedEq w 0x0C000000#32 0x04000000#32 then
    .wordTransfer c (w.getLsbD 25) (w.getLsbD 24) (w.getLsbD 23) (w.getLsbD 22) (w.getLsbD 21) (w.getLsbD 20)
      (regAt w 16) (regAt w 12) (w.extractLsb' 0 12)
  else if maskedEq w 0x0E000000#32 0x08000000#32 then
    .blockTransfer c (w.getLsbD 24) (w.getLsbD 23) (w.getLsbD 22) (w.getLsbD 21) (w.getLsbD 20) (regAt w 16)
      (w.extractLsb' 0 16)
  else if maskedEq w 0x0F000000#32 0x0A000000#32 then branchRow c (w.extractLsb' 0 24)
  else if maskedEq w 0x0F000000#32 0x0B000000#32 then linkRow c (w.extractLsb' 0 24)
  else if maskedEq w 0x0E000000#32 0x0C000000#32 then
    .coprocessorDataTransfer c (w.getLsbD 24) (w.getLsbD 23) (w.getLsbD 22) (w.getLsbD 21) (w.getLsbD 20) (regAt w 16)
      (w.extractLsb' 12 4) (w.extractLsb' 8 4) (w.extractLsb' 0 8)
  else if maskedEq w 0x0F000010#32 0x0E000000#32 then
    .coprocessorDataOperation c (w.extractLsb' 20 4) (w.extractLsb' 16 4) (w.extractLsb' 12 4) (w.extractLsb' 8 4)
      (w.extractLsb' 5 3) (w.extractLsb' 0 4)
  else if maskedEq w 0x0F000010#32 0x0E000010#32 then
    .coprocessorRegisterTransfer c (w.extractLsb' 21 3) (w.getLsbD 20) (w.extractLsb' 16 4) (regAt w 12)
      (w.extractLsb' 8 4) (w.extractLsb' 5 3) (w.extractLsb' 0 4)
  else .swi c (w.extractLsb' 0 24)

/-- The instruction a 32-bit word is: the condition field first (R93), then the lines of R98. Every word has one. -/
def decodeWord (w : Word) : Instr :=
  match Cond.ofCode (w.extractLsb' 28 4) with
  | none => .conditionReserved (w.extractLsb' 0 28)
  | some c => decodeBody c w

/-- Why bytes are no ARM-state instruction. -/
inductive DecodeError where
  /-- Fewer than the four bytes of an instruction (30_encoding.md R90). -/
  | truncated
  deriving DecidableEq, Repr

/-- The instruction at the head of a list of bytes, and the bytes after it (R63, R90). -/
def decode : List Byte → Except DecodeError (Instr × List Byte)
  | b0 :: b1 :: b2 :: b3 :: rest => .ok (decodeWord (joinBytes Config.byteOrder [b0, b1, b2, b3]), rest)
  | _ => .error .truncated

/-- The decoder on the bits of one row of spec/opcode_table.json, which are the one word of the instruction: an
instruction is exactly 32 bits (R90), and the bits above `nbits` are zero. -/
def decodeTableWord (nbits w : Nat) : Option Instr :=
  match decode (splitBytes Config.byteOrder 4 (BitVec.ofNat 32 (w % 2 ^ nbits))) with
  | .ok (i, _) => some i
  | .error _ => none

/-! ### The encoder -/

/-- One bit of a word. -/
def bit (b : Bool) : BitVec 1 := BitVec.ofBool b

/-- The F11 word (R107). -/
def encodeBranch (c : Cond) (l : Bool) (rel : BitVec 24) : Word := c.code ++ 0b101#3 ++ bit l ++ rel

/-- The word of an instruction, field by field from the format figure (R95, R99 to R109; R168, R169 for the exit
instructions). -/
def encode : Instr → Word
  | .bx c rn => c.code ++ 0x12FFF1#24 ++ rn.num
  | .multiply c a s rd rn rs rm => c.code ++ 0b000000#6 ++ bit a ++ bit s ++ rd.num ++ rn.num ++ rs.num ++ 0b1001#4 ++ rm.num
  | .longMultiply c u a s rdHi rdLo rs rm =>
    c.code ++ 0b00001#5 ++ bit u ++ bit a ++ bit s ++ rdHi.num ++ rdLo.num ++ rs.num ++ 0b1001#4 ++ rm.num
  | .swap c b rn rd rm => c.code ++ 0b00010#5 ++ bit b ++ 0b00#2 ++ rn.num ++ rd.num ++ 0b00001001#8 ++ rm.num
  | .halfwordRegister c p u w l rn rd s h rm =>
    c.code ++ 0b000#3 ++ bit p ++ bit u ++ 0b0#1 ++ bit w ++ bit l ++ rn.num ++ rd.num ++ 0b0000#4 ++ 0b1#1 ++ bit s ++ bit h
      ++ 0b1#1 ++ rm.num
  | .halfwordImmediate c p u w l rn rd offsetHi s h offsetLo =>
    c.code ++ 0b000#3 ++ bit p ++ bit u ++ 0b1#1 ++ bit w ++ bit l ++ rn.num ++ rd.num ++ offsetHi ++ 0b1#1 ++ bit s ++ bit h
      ++ 0b1#1 ++ offsetLo
  | .movsPcR14 c => c.code ++ 0b00#2 ++ 0b0#1 ++ 0b1101#4 ++ 0b1#1 ++ 0b0000#4 ++ 0b1111#4 ++ 0b000000001110#12
  | .subsPcR14By4 c => c.code ++ 0b00#2 ++ 0b1#1 ++ 0b0010#4 ++ 0b1#1 ++ 0b1110#4 ++ 0b1111#4 ++ 0b0000#4 ++ 4#8
  | .subsPcR14By8 c => c.code ++ 0b00#2 ++ 0b1#1 ++ 0b0010#4 ++ 0b1#1 ++ 0b1110#4 ++ 0b1111#4 ++ 0b0000#4 ++ 8#8
  | .dataProcessing c i opcode s rn rd operand2 =>
    c.code ++ 0b00#2 ++ bit i ++ opcode ++ bit s ++ rn.num ++ rd.num ++ operand2
  | .undefined c high low => c.code ++ 0b011#3 ++ high ++ 0b1#1 ++ low
  | .wordTransfer c i p u b w l rn rd offset =>
    c.code ++ 0b01#2 ++ bit i ++ bit p ++ bit u ++ bit b ++ bit w ++ bit l ++ rn.num ++ rd.num ++ offset
  | .blockTransfer c p u s w l rn registerList =>
    c.code ++ 0b100#3 ++ bit p ++ bit u ++ bit s ++ bit w ++ bit l ++ rn.num ++ registerList
  | .b c rel => encodeBranch c false rel
  | .bl c rel => encodeBranch c true rel
  | .coprocessorDataTransfer c p u n w l rn crd cpNum offset =>
    c.code ++ 0b110#3 ++ bit p ++ bit u ++ bit n ++ bit w ++ bit l ++ rn.num ++ crd ++ cpNum ++ offset
  | .coprocessorDataOperation c cpOpcode crn crd cpNum cp crm =>
    c.code ++ 0b1110#4 ++ cpOpcode ++ crn ++ crd ++ cpNum ++ cp ++ 0b0#1 ++ crm
  | .coprocessorRegisterTransfer c cpOpcode l crn rd cpNum cp crm =>
    c.code ++ 0b1110#4 ++ cpOpcode ++ bit l ++ crn ++ rd.num ++ cpNum ++ cp ++ 0b1#1 ++ crm
  | .swi c ignored => c.code ++ 0b1111#4 ++ ignored
  | .beq rel => encodeBranch .eq false rel
  | .bne rel => encodeBranch .ne false rel
  | .bcs rel => encodeBranch .cs false rel
  | .bcc rel => encodeBranch .cc false rel
  | .bmi rel => encodeBranch .mi false rel
  | .bpl rel => encodeBranch .pl false rel
  | .bvs rel => encodeBranch .vs false rel
  | .bvc rel => encodeBranch .vc false rel
  | .bhi rel => encodeBranch .hi false rel
  | .bls rel => encodeBranch .ls false rel
  | .bge rel => encodeBranch .ge false rel
  | .blt rel => encodeBranch .lt false rel
  | .bgt rel => encodeBranch .gt false rel
  | .ble rel => encodeBranch .le false rel
  | .bal rel => encodeBranch .al false rel
  | .bleq rel => encodeBranch .eq true rel
  | .blne rel => encodeBranch .ne true rel
  | .blcs rel => encodeBranch .cs true rel
  | .blcc rel => encodeBranch .cc true rel
  | .blmi rel => encodeBranch .mi true rel
  | .blpl rel => encodeBranch .pl true rel
  | .blvs rel => encodeBranch .vs true rel
  | .blvc rel => encodeBranch .vc true rel
  | .blhi rel => encodeBranch .hi true rel
  | .blls rel => encodeBranch .ls true rel
  | .blge rel => encodeBranch .ge true rel
  | .bllt rel => encodeBranch .lt true rel
  | .blgt rel => encodeBranch .gt true rel
  | .blle rel => encodeBranch .le true rel
  | .blal rel => encodeBranch .al true rel
  | .conditionReserved bits => 0b1111#4 ++ bits

/-- The four bytes of an instruction, at rising addresses. -/
def encodeBytes (i : Instr) : List Byte := splitBytes Config.byteOrder 4 (encode i)

end Sys2Proof
end

