-- ==== Sys2Proof/Machine/State.lean ====
section
/-! DEFINITION. The state of the core: everything 10_state.md gives it, the memory of 20_memory.md, and the inputs the
core observes (10_state.md R43). Plain data throughout. -/

namespace Sys2Proof.Machine

/-- The seven operating modes (10_state.md R34, 60_exceptions.md R262). -/
inductive Mode where
  | user | fiq | irq | supervisor | abort | undefined | system
  deriving DecidableEq, Repr

/-- The five modes an exception enters; each has its own R13, R14 and SPSR (R38, R265). -/
inductive ExcMode where
  | fiq | irq | supervisor | abort | undefined
  deriving DecidableEq, Repr

/-- The physical general registers other than R15: sixteen less R15 of the User model and fifteen banked ones
(R23). -/
inductive PhysReg where
  | r0 | r1 | r2 | r3 | r4 | r5 | r6 | r7 | r8 | r9 | r10 | r11 | r12 | r13 | r14
  | r8Fiq | r9Fiq | r10Fiq | r11Fiq | r12Fiq | r13Fiq | r14Fiq
  | r13Svc | r14Svc | r13Abt | r14Abt | r13Irq | r14Irq | r13Und | r14Und
  deriving DecidableEq, Repr

/-- What a register number names in a mode (R23): a physical general register, or R15, the program counter. -/
inductive Home where
  | general (p : PhysReg)
  | pc
  deriving DecidableEq, Repr

/-- The seven exceptions, in the order of falling priority (60_exceptions.md R240, R250). -/
inductive Exception where
  | reset | dataAbort | fiq | irq | prefetchAbort | undefined | softwareInterrupt
  deriving DecidableEq, Repr

/-- The kinds of access an Abort request can answer (20_memory.md R67, 00_scope.md R8). -/
inductive AccessKind where
  | fetch | read | write
  deriving DecidableEq, Repr

/-- Addresses `first` to `last`, both included, at which an access of this kind is answered by an Abort request. -/
structure AbortRange where
  first : Nat
  last : Nat
  kind : AccessKind
  deriving DecidableEq, Repr

/-- What the environment presents to the core at an instruction boundary (R43): the three request levels
(true: asserted) and the predicate `abort_req`, as the ranges where it holds (R67, D14). Assumption log 8. -/
structure Inputs where
  reset : Bool
  fiq : Bool
  irq : Bool
  aborts : List AbortRange
  deriving DecidableEq, Repr

/-- Nothing asserted, no access aborted: the spec's defaults (D6, D14). -/
def Inputs.idle : Inputs := { reset := false, fiq := false, irq := false, aborts := [] }

/-- The machine's whole state (10_state.md, 20_memory.md R60). -/
structure State where
  /-- The thirty general registers that are not R15, at the places `PhysReg.index` gives (R23). -/
  regs : Vector Word 30
  /-- R15: the address of the next instruction to fetch (R26; 00_scope.md section 7). -/
  pc : Word
  /-- The current program status register (R30). -/
  cpsr : Word
  /-- The saved program status registers (R38). -/
  spsrFiq : Word
  spsrIrq : Word
  spsrSvc : Word
  spsrAbt : Word
  spsrUnd : Word
  /-- Memory, 2^32 bytes (20_memory.md R60), as cells in canonical form (`Memory.wf`); an address not listed holds
  no value (assumption log 2). -/
  mem : List Host.Cell
  /-- The levels the environment presents at this boundary (R43). -/
  inputs : Inputs
  /-- The levels it will present at the next boundaries, one each; when none is left the levels stay as they are. -/
  upcoming : List Inputs
  /-- The model's own count of free values drawn (assumption log 7); not the spec's. -/
  draws : Nat
  deriving DecidableEq, Repr

/-- Why the machine stops with a fault: it never does. The outcomes of a step are a next state, an exception entry among
them, and a refusal, and no other (00_scope.md R5): every fault the spec describes is an exception, which is taken. -/
inductive Fault where
  deriving DecidableEq, Repr

/-- Why a step has no meaning in the spec (00_scope.md R5: a refusal is never a value and never a no-op). -/
inductive Refusal where
  /-- Raised by an arm of `exec` whose instruction has no meaning yet; none is left. Safe. -/
  | notModelled (mnemonic : String)
  /-- Raised by `execConditionReserved`: condition field 0b1111 (R93, D8). Safe. -/
  | conditionReserved
  /-- Raised by `execDataProcessing` with a passing condition: no operation given (R170, D9). Safe. -/
  | dataProcessingOperationNotGiven
  /-- Raised by `execMultiply` with a passing condition: no operation given (R171, D9). Safe. -/
  | multiplyOperationNotGiven
  /-- Raised by `execLongMultiply` with a passing condition: no operation given (R171, D9). Safe. -/
  | longMultiplyOperationNotGiven
  /-- Raised by `execSwap` with a passing condition: no operation given (R197, R198, D9). Safe. -/
  | swapOperationNotGiven
  /-- Raised by `execHalfwordRegister` and `execHalfwordImmediate` with a passing condition (R195, R198, D9). Safe. -/
  | halfwordTransferOperationNotGiven
  /-- Raised by `execWordTransfer` with a passing condition: no operation given (R194, R198, D9). Safe. -/
  | wordTransferOperationNotGiven
  /-- Raised by `execBlockTransfer` with a passing condition: no operation given (R196, R198, D9). Safe. -/
  | blockTransferOperationNotGiven
  /-- Raised by the three coprocessor meanings with a passing condition: no coprocessor (R220 to R223, D21). Safe. -/
  | coprocessorNotDescribed
  /-- Raised by `execBx` for Rn = 15 (R132, D31). Safe. -/
  | bxOfR15
  /-- Raised by `execBx` and the exit instructions: an ARM-state target that is no multiple of 4 (R29, R134, D7).
  Safe. -/
  | misalignedTarget
  /-- Raised by `execSwi` in FIQ mode (R133, D16). Safe. -/
  | swiInFiqMode
  /-- Raised by the exit instructions in User and System mode, which have no SPSR (R168, D17). Safe. -/
  | noSavedStatus
  /-- Raised by the exit instructions when the SPSR's mode code is none of the seven (R35, R168, D15). Safe. -/
  | illegalSavedMode
  /-- Raised by `step`, and by the meanings that name a banked register, in a state whose CPSR mode code is none of
  the seven (R35, D15). Safe. -/
  | illegalMode
  /-- Raised by `step` in THUMB state, whatever is requested (44_thumb_state.md R235, D10, D27). Safe (assumption
  log 9). -/
  | thumbState
  /-- Raised by `memRead`, for the fetch of `step` and for a data read: a byte of memory that nothing has placed. The spec
  gives memory no contents (R44). Safe: the hardware would go on with some byte (assumption log 2). -/
  | unplacedByte (address : Nat)
  /-- Raised by `memRead` and `memWrite`: an address that is no multiple of the access width (R62, R65, D7); `step`
  raises it for a fetch from such an address, which no run reaches (R63). Safe. -/
  | misalignedAccess
  deriving DecidableEq, Repr

/-- The machine right after reset (R44, R290): Supervisor mode, ARM state, I = F = 1, pc at the reset vector, memory
with nothing placed, no request asserted. The spec leaves the other registers and status bits unspecified; the values
here are the model's: zero for the general registers, N Z C V and bits 27:8 (assumption logs 3, 5), 0x000000D3 for
each SPSR (log 4). -/
def State.reset : State where
  regs := Vector.replicate 30 0x00000000#32
  pc := Config.vectorBase
  cpsr := 0x000000D3#32
  spsrFiq := 0x000000D3#32
  spsrIrq := 0x000000D3#32
  spsrSvc := 0x000000D3#32
  spsrAbt := 0x000000D3#32
  spsrUnd := 0x000000D3#32
  mem := []
  inputs := Inputs.idle
  upcoming := []
  draws := 0

end Sys2Proof.Machine
end

