-- ==== Sys2Proof/Machine/Memory.lean ====
section
/-! DEFINITION. Memory as cells in one canonical form: addresses strictly rising and below 2^32 (20_memory.md R60). An
address that is not listed holds no value, so no listed entry can equal it (assumption log 2). -/

namespace Sys2Proof.Machine

/-- The cells rise strictly from `low` on and stay below 2^32. -/
def Memory.risesFrom (low : Nat) : List Host.Cell → Bool
  | [] => true
  | (a, _) :: m => decide (low ≤ a) && decide (a < 2 ^ 32) && Memory.risesFrom (a + 1) m

/-- The canonical form. -/
def Memory.wf (m : List Host.Cell) : Bool := Memory.risesFrom 0 m

/-- The byte at an address, if one has been placed there. -/
def Memory.lookup (a : Nat) : List Host.Cell → Option Byte
  | [] => none
  | (a', b) :: m => if a = a' then some b else Memory.lookup a m

/-- The byte `b` placed at address `a`. -/
def Memory.store (a : Nat) (b : Byte) : List Host.Cell → List Host.Cell
  | [] => [(a, b)]
  | (a', b') :: m =>
    if a < a' then (a, b) :: (a', b') :: m
    else if a = a' then (a, b) :: m
    else (a', b') :: Memory.store a b m

/-- The bytes placed at `addr`, `addr + 1`, ..., addresses modulo 2^32 (R69). -/
def Memory.storeBytes (addr : Word) : List Byte → List Host.Cell → List Host.Cell
  | [], m => m
  | b :: bs, m => Memory.storeBytes (addr + 1#32) bs (Memory.store addr.toNat b m)

/-- The `n` bytes from `addr` on, addresses modulo 2^32 (R69); where one is missing, its address. -/
def Memory.loadBytes (m : List Host.Cell) (addr : Word) : Nat → Except Nat (List Byte)
  | 0 => .ok []
  | n + 1 =>
    match Memory.lookup addr.toNat m with
    | none => .error addr.toNat
    | some b =>
      match Memory.loadBytes m (addr + 1#32) n with
      | .error a => .error a
      | .ok bs => .ok (b :: bs)

end Sys2Proof.Machine
end

