-- ==== Sys2Proof/Machine/Flags.lean ====
section
/-! DEFINITION. The fields of a status word (10_state.md R30), the modes its low five bits name (R34), and the test of
the condition field (30_encoding.md R92). The same accessors serve CPSR and every SPSR (R38). -/

namespace Sys2Proof.Machine

/-! ### The fields of R30 -/

def Psr.n (p : Word) : Bool := p.getLsbD 31
def Psr.z (p : Word) : Bool := p.getLsbD 30
def Psr.c (p : Word) : Bool := p.getLsbD 29
def Psr.v (p : Word) : Bool := p.getLsbD 28
/-- The reserved bits 27:8, carried as storage (R36, D22). -/
def Psr.reserved (p : Word) : BitVec 20 := p.extractLsb' 8 20
/-- IRQ disable (R32). -/
def Psr.i (p : Word) : Bool := p.getLsbD 7
/-- FIQ disable (R32). -/
def Psr.f (p : Word) : Bool := p.getLsbD 6
/-- 1 THUMB, 0 ARM (R33). -/
def Psr.t (p : Word) : Bool := p.getLsbD 5
/-- The mode code M[4:0] (R34). -/
def Psr.m (p : Word) : BitVec 5 := p.extractLsb' 0 5

/-- `p` with the T bit replaced. -/
def Psr.withT (p : Word) (t : Bool) : Word := p.extractLsb' 6 26 ++ BitVec.ofBool t ++ p.extractLsb' 0 5

/-- `p` with the low eight bits I, F, T, M replaced; N, Z, C, V and bits 27:8 kept. -/
def Psr.withControl (p : Word) (i f t : Bool) (m : BitVec 5) : Word :=
  p.extractLsb' 8 24 ++ BitVec.ofBool i ++ BitVec.ofBool f ++ BitVec.ofBool t ++ m

/-! ### Modes (R34) -/

/-- The code of a mode. -/
def Mode.code : Mode → BitVec 5
  | .user => 0b10000#5
  | .fiq => 0b10001#5
  | .irq => 0b10010#5
  | .supervisor => 0b10011#5
  | .abort => 0b10111#5
  | .undefined => 0b11011#5
  | .system => 0b11111#5

/-- The mode a code names; the other 25 codes name none (R35). -/
def Mode.ofCode (c : BitVec 5) : Option Mode :=
  match c.toNat with
  | 16 => some .user
  | 17 => some .fiq
  | 18 => some .irq
  | 19 => some .supervisor
  | 23 => some .abort
  | 27 => some .undefined
  | 31 => some .system
  | _ => none

/-- The mode an exception mode is. -/
def ExcMode.mode : ExcMode → Mode
  | .fiq => .fiq
  | .irq => .irq
  | .supervisor => .supervisor
  | .abort => .abort
  | .undefined => .undefined

/-- Which SPSR a mode has (R34, R38): User and System have none. -/
def Mode.saved : Mode → Option ExcMode
  | .user => none
  | .fiq => some .fiq
  | .irq => some .irq
  | .supervisor => some .supervisor
  | .abort => some .abort
  | .undefined => some .undefined
  | .system => none

/-- The mode the machine is in, if CPSR names one (R34, R35). -/
def State.mode (s : State) : Option Mode := Mode.ofCode (Psr.m s.cpsr)

/-- The machine is in THUMB state (R33). -/
def State.thumb (s : State) : Bool := Psr.t s.cpsr

/-- The output pin TBIT: it shows the T bit and is no input (R33, D23). -/
def State.tbit (s : State) : Bool := s.thumb

/-! ### Conditions (30_encoding.md R92) -/

/-- `CondPassed`, on the flags of a status word. -/
def condPassed (c : Cond) (p : Word) : Bool :=
  match c with
  | .eq => Psr.z p
  | .ne => !Psr.z p
  | .cs => Psr.c p
  | .cc => !Psr.c p
  | .mi => Psr.n p
  | .pl => !Psr.n p
  | .vs => Psr.v p
  | .vc => !Psr.v p
  | .hi => Psr.c p && !Psr.z p
  | .ls => !Psr.c p || Psr.z p
  | .ge => Psr.n p == Psr.v p
  | .lt => Psr.n p != Psr.v p
  | .gt => !Psr.z p && Psr.n p == Psr.v p
  | .le => Psr.z p || Psr.n p != Psr.v p
  | .al => true

end Sys2Proof.Machine
end

