-- ==== Sys2Proof/Machine/Operands.lean ====
section
/-! DEFINITION. Registers as an instruction names them (10_state.md R20 to R28, R38), the shift functions
(41_data_processing.md R161 to R166), the second-operand kinds (R167) and the addressing modes (42_data_transfer.md
R190 to R193). No instruction the spec gives a meaning uses a shift or an addressing mode (R198): they are functions. -/

namespace Sys2Proof.Machine

/-! ### Register selection (R23, R24) -/

/-- The place of a physical register in `State.regs`. -/
def PhysReg.index : PhysReg → Fin 30
  | .r0 => 0 | .r1 => 1 | .r2 => 2 | .r3 => 3 | .r4 => 4 | .r5 => 5 | .r6 => 6 | .r7 => 7
  | .r8 => 8 | .r9 => 9 | .r10 => 10 | .r11 => 11 | .r12 => 12 | .r13 => 13 | .r14 => 14
  | .r8Fiq => 15 | .r9Fiq => 16 | .r10Fiq => 17 | .r11Fiq => 18 | .r12Fiq => 19 | .r13Fiq => 20 | .r14Fiq => 21
  | .r13Svc => 22 | .r14Svc => 23 | .r13Abt => 24 | .r14Abt => 25 | .r13Irq => 26 | .r14Irq => 27
  | .r13Und => 28 | .r14Und => 29

/-- The register that stands for number 13 in a mode (R23). -/
def Mode.r13 : Mode → PhysReg
  | .user | .system => .r13
  | .fiq => .r13Fiq
  | .supervisor => .r13Svc
  | .abort => .r13Abt
  | .irq => .r13Irq
  | .undefined => .r13Und

/-- The register that stands for number 14 in a mode (R23). -/
def Mode.r14 : Mode → PhysReg
  | .user | .system => .r14
  | .fiq => .r14Fiq
  | .supervisor => .r14Svc
  | .abort => .r14Abt
  | .irq => .r14Irq
  | .undefined => .r14Und

/-- `usual` in every mode but FIQ, which has its own R8 to R12 (R23). -/
def Mode.orFiq (m : Mode) (usual fiq : PhysReg) : PhysReg :=
  match m with
  | .fiq => fiq
  | _ => usual

/-- What register number `r` names in mode `m`: row `r`, column `m` of R23's table. -/
def bank (m : Mode) (r : Reg) : Home :=
  match r with
  | .r0 => .general .r0
  | .r1 => .general .r1
  | .r2 => .general .r2
  | .r3 => .general .r3
  | .r4 => .general .r4
  | .r5 => .general .r5
  | .r6 => .general .r6
  | .r7 => .general .r7
  | .r8 => .general (m.orFiq .r8 .r8Fiq)
  | .r9 => .general (m.orFiq .r9 .r9Fiq)
  | .r10 => .general (m.orFiq .r10 .r10Fiq)
  | .r11 => .general (m.orFiq .r11 .r11Fiq)
  | .r12 => .general (m.orFiq .r12 .r12Fiq)
  | .r13 => .general m.r13
  | .r14 => .general m.r14
  | .r15 => .pc

/-- The content of a physical register. -/
def State.phys (s : State) (p : PhysReg) : Word := s.regs[p.index]

/-- The state with a physical register replaced. -/
def State.setPhys (s : State) (p : PhysReg) (v : Word) : State :=
  { s with regs := s.regs.set p.index v p.index.isLt }

/-- `x[r]` read by an ARM-state instruction in mode `m` (00_scope.md section 7): R15 reads as the instruction's own
address plus `PC_READ_OFFSET` (R28). -/
def State.readReg (s : State) (m : Mode) (r : Reg) : Word :=
  match bank m r with
  | .general p => s.phys p
  | .pc => s.pc + Config.pcReadOffset

/-- `x[r] <- v` in mode `m`: for R15, the address of the next instruction. -/
def State.writeReg (s : State) (m : Mode) (r : Reg) (v : Word) : State :=
  match bank m r with
  | .general p => s.setPhys p v
  | .pc => { s with pc := v }

/-- The SPSR of a mode that has one (R38). -/
def State.spsr (s : State) (e : ExcMode) : Word :=
  match e with
  | .fiq => s.spsrFiq
  | .irq => s.spsrIrq
  | .supervisor => s.spsrSvc
  | .abort => s.spsrAbt
  | .undefined => s.spsrUnd

/-- The state with the SPSR of a mode replaced. -/
def State.setSpsr (s : State) (e : ExcMode) (v : Word) : State :=
  match e with
  | .fiq => { s with spsrFiq := v }
  | .irq => { s with spsrIrq := v }
  | .supervisor => { s with spsrSvc := v }
  | .abort => { s with spsrAbt := v }
  | .undefined => { s with spsrUnd := v }

/-! ### Shift functions (R161 to R166) -/

/-- The result and the carry-out of a shift. -/
structure Shifted where
  result : Word
  carry : Bool
  deriving DecidableEq, Repr

/-- The shift kinds written in an operand (R113, R167). -/
inductive ShiftOp where
  | lsl | lsr | asr | ror
  deriving DecidableEq, Repr

/-- The amounts R161 to R164 are defined for (R166). -/
def shiftAmountGiven (n : Nat) : Bool := decide (1 ≤ n) && decide (n ≤ 31)

/-- LSL (R161). -/
def shiftLsl (m : Word) (n : Nat) : Option Shifted :=
  if shiftAmountGiven n then some { result := m <<< n, carry := m.getLsbD (32 - n) } else none

/-- LSR (R162). -/
def shiftLsr (m : Word) (n : Nat) : Option Shifted :=
  if shiftAmountGiven n then some { result := m >>> n, carry := m.getLsbD (n - 1) } else none

/-- ASR (R163). -/
def shiftAsr (m : Word) (n : Nat) : Option Shifted :=
  if shiftAmountGiven n then some { result := m.sshiftRight n, carry := m.getLsbD (n - 1) } else none

/-- ROR (R164). -/
def shiftRor (m : Word) (n : Nat) : Option Shifted :=
  if shiftAmountGiven n then some { result := m.rotateRight n, carry := m.getLsbD (n - 1) } else none

/-- RRX with the carry flag `c` (R165). -/
def shiftRrx (m : Word) (c : Bool) : Shifted :=
  { result := BitVec.ofBool c ++ m.extractLsb' 1 31, carry := m.getLsbD 0 }

/-- A written shift of `m` by `n` under carry flag `c`: ROR #0 is RRX (R165); outside the given amounts there is no
value (R166, U10). -/
def shiftValue (op : ShiftOp) (m : Word) (n : Nat) (c : Bool) : Option Shifted :=
  match op with
  | .lsl => shiftLsl m n
  | .lsr => shiftLsr m n
  | .asr => shiftAsr m n
  | .ror => if n = 0 then some (shiftRrx m c) else shiftRor m n

/-! ### Second operands (R167) -/

/-- The second-operand kinds: the three of R167, and the amount in a register, which has a layout (30_encoding.md R99) and no
value (R166). -/
inductive Operand2 where
  | immediate (value : Word)
  | register (rn : Reg)
  | scaled (rn : Reg) (op : ShiftOp) (n : Nat)
  | registerShifted (rn : Reg) (op : ShiftOp) (rs : Reg)
  deriving DecidableEq, Repr

/-- The value of a second operand, and its carry-out where the source defines one (R161: none for a plain register). -/
structure Operand2Value where
  value : Word
  carry : Option Bool
  deriving DecidableEq, Repr

/-- The value of a second operand in mode `m`; none where the shift has none. What ROR #0 gives is R165; that RRX is among the
operand notations is not in the source (R113): DESIGN CHOICE (assumption log 36, unsafe). -/
def State.operand2 (s : State) (m : Mode) : Operand2 → Option Operand2Value
  | .immediate v => some { value := v, carry := none }
  | .register rn => some { value := s.readReg m rn, carry := none }
  | .scaled rn op n =>
    match shiftValue op (s.readReg m rn) n (Psr.c s.cpsr) with
    | none => none
    | some r => some { value := r.result, carry := some r.carry }
  | .registerShifted _ _ _ => none

/-! ### Fields of a shifted register (30_encoding.md R99) -/

/-- The `shift_type` of R99 (GK8; assumption log 39). -/
def ShiftOp.ofField (shiftType : BitVec 2) : ShiftOp :=
  match shiftType.toNat with
  | 0 => .lsl
  | 1 => .lsr
  | 2 => .asr
  | _ => .ror

/-- The Rm of a field, its bits 3:0 (R99). -/
def fieldRm (field : BitVec 12) : Reg := Reg.ofNum (field.extractLsb' 0 4)

/-- The shift `shift_amount[11:7] : shift_type[6:5]` of a field writes; none for LSL #0, the plain register, as in the Operand 2
of `MOVS PC, R14` (41_data_processing.md R168; DEDUCED, assumption log 40). -/
def fieldShift (field : BitVec 12) : Option (ShiftOp × Nat) :=
  if field.extractLsb' 5 7 = 0#7 then none
  else some (ShiftOp.ofField (field.extractLsb' 5 2), (field.extractLsb' 7 5).toNat)

/-- The Operand 2 field of F1 under its bit I (R99, GK8; assumption log 39): `rotate : imm8`, a register shifted by an amount,
or a register shifted by a register. Bits 7 and 4 both set are no layout of R99. -/
def operand2OfField (i : Bool) (field : BitVec 12) : Option Operand2 :=
  if i then some (.immediate (((field.extractLsb' 0 8).setWidth 32).rotateRight (2 * (field.extractLsb' 8 4).toNat)))
  else if !field.getLsbD 4 then
    match fieldShift field with
    | none => some (.register (fieldRm field))
    | some (op, n) => some (.scaled (fieldRm field) op n)
  else if !field.getLsbD 7 then
    some (.registerShifted (fieldRm field) (ShiftOp.ofField (field.extractLsb' 5 2)) (Reg.ofNum (field.extractLsb' 8 4)))
  else none

/-! ### Addressing modes (R190 to R193) -/

/-- The offset of an indexed address: `Imm`, `Rm`, or `Rm, shift #n`. -/
inductive Offset where
  | immediate (value : Word)
  | register (rm : Reg)
  | scaled (rm : Reg) (op : ShiftOp) (n : Nat)
  deriving DecidableEq, Repr

/-- The addressing notations of R113; `up` is the sign, `writeBack` the `!` (R193). -/
inductive AddressForm where
  | indirect (rn : Reg)
  | preIndexed (rn : Reg) (up : Bool) (offset : Offset) (writeBack : Bool)
  | postIndexed (rn : Reg) (up : Bool) (offset : Offset)
  deriving DecidableEq, Repr

/-- The effective address, and the value the base register is given after the access, if any. -/
structure Address where
  ea : Word
  newBase : Option Word
  deriving DecidableEq, Repr

/-- The form stands in the source's table (R113): no `!` on a scaled form (R193), no post-indexed immediate (R192). The table
has no RRX form either, and whether one exists is not in the source; a scaled offset ROR #0 is answered true here, so that
`State.address` gives it a value: DESIGN CHOICE (assumption log 36, unsafe). -/
def AddressForm.listed : AddressForm → Bool
  | .indirect _ => true
  | .preIndexed _ _ (.scaled _ _ _) writeBack => !writeBack
  | .preIndexed _ _ _ _ => true
  | .postIndexed _ _ (.immediate _) => false
  | .postIndexed _ _ _ => true

/-- The value of an offset in mode `m`; none where the shift has none. -/
def State.offset (s : State) (m : Mode) : Offset → Option Word
  | .immediate v => some v
  | .register rm => some (s.readReg m rm)
  | .scaled rm op n =>
    match shiftValue op (s.readReg m rm) n (Psr.c s.cpsr) with
    | none => none
    | some r => some r.result

/-- `base ± off`, modulo 2^32 (R191). -/
def indexed (base : Word) (up : Bool) (off : Word) : Word := if up then base + off else base - off

/-- The address a form gives in mode `m` (R190 to R193); none for a form the source does not list. DESIGN CHOICE (assumption
log 34, unsafe): what a base update does with Rn = R15 is not in the source (R193, U21); here R15 is a base like any
register, reads as A + 8 and gives that base less or plus the offset as `newBase`. -/
def State.address (s : State) (m : Mode) (form : AddressForm) : Option Address :=
  if form.listed then
    match form with
    | .indirect rn => some { ea := s.readReg m rn, newBase := none }
    | .preIndexed rn up offset writeBack =>
      match s.offset m offset with
      | none => none
      | some off =>
        let ea := indexed (s.readReg m rn) up off
        some { ea := ea, newBase := if writeBack then some ea else none }
    | .postIndexed rn up offset =>
      match s.offset m offset with
      | none => none
      | some off => some { ea := s.readReg m rn, newBase := some (indexed (s.readReg m rn) up off) }
  else none

/-! ### The offsets of the transfer formats -/

/-- The offset field of F8 under its bit I (30_encoding.md R104, GK11; assumption log 39): I clear, a 12-bit unsigned immediate;
I set, Rm shifted as in Operand 2 with bit 4 clear. With I and bit 4 set the word is F9 (R105). -/
def wordOffset (i : Bool) (field : BitVec 12) : Option Offset :=
  if !i then some (.immediate (field.setWidth 32))
  else if field.getLsbD 4 then none
  else
    match fieldShift field with
    | none => some (.register (fieldRm field))
    | some (op, n) => some (.scaled (fieldRm field) op n)

/-- The 8-bit offset of F7, `insn[11:8] : insn[3:0]` zero-extended (30_encoding.md R103, GK10; assumption log 39). -/
def halfwordOffset (offsetHi offsetLo : BitVec 4) : Offset := .immediate ((offsetHi ++ offsetLo : BitVec 8).setWidth 32)

/-- The address form the flags P, U and W select: P set, pre-indexed with U the sign (set: added) and W the `!`; P clear,
post-indexed (30_encoding.md R97, GK6; assumption log 39), where W says nothing, the update being unconditional (R192;
DEDUCED, assumption log 40). -/
def indexedForm (p u w : Bool) (rn : Reg) (offset : Offset) : AddressForm :=
  if p then .preIndexed rn u offset w else .postIndexed rn u offset

end Sys2Proof.Machine
end

