-- ==== Sys2Proof/Machine/Ops.lean ====
section
/-! DEFINITION. The named operations every meaning is made of: moving the program counter, reading and writing memory,
taking an exception and returning from one (60_exceptions.md), the whole written once. -/

namespace Sys2Proof.Machine

/-- The outcomes of the machine. -/
abbrev Result := Host.Outcome State Fault Refusal

/-! ### The program counter -/

/-- The next instruction in sequence: `A + 4` (10_state.md R27). -/
def State.advance (s : State) : State := { s with pc := s.pc + 4#32 }

/-- An address with bits 1:0 clear (R26, R62). -/
def wordAligned (a : Word) : Bool := a.extractLsb' 0 2 == 0#2

/-- `v[31:1] : 0`, the THUMB-state instruction address a register value gives (40_control_transfer.md R132). -/
def thumbTarget (v : Word) : Word := v.extractLsb' 1 31 ++ 0#1

/-- The byte offset of a branch field: `sext_32(rel : 0b00)` (30_encoding.md R107; BRANCH_SHIFT = 2, D3). -/
def branchOffset (rel : BitVec 24) : Word := (rel ++ 0b00#2).signExtend 32

/-- The target of a branch at `A`: `(A + PC_READ_OFFSET) + sext_32(rel : 0b00)` (R130). -/
def branchTarget (a : Word) (rel : BitVec 24) : Word := (a + Config.pcReadOffset) + branchOffset rel

/-- The effect under a passing condition, else nothing but the advance (30_encoding.md R94, D29). -/
def whenPassed (c : Cond) (s : State) (effect : Result) : Result :=
  if condPassed c s.cpsr then effect else .next s.advance

/-! ### Memory accesses (20_memory.md R61 to R69) -/

/-- The data sizes (R61). -/
inductive Width where
  | byte | half | word
  deriving DecidableEq, Repr

/-- The bytes of a data size. -/
def Width.bytes : Width → Nat
  | .byte => 1
  | .half => 2
  | .word => 4

/-- The address is one the source places such data at (R62). -/
def Width.aligned (w : Width) (addr : Word) : Bool := addr.toNat % w.bytes == 0

/-- `MemRead(addr, n)` (R69): the `8n`-bit value, handed back as a word with zeros above it. DESIGN CHOICE (assumption log 38,
unsafe): how a loaded byte or halfword is extended is not in the source (42_data_transfer.md R194, R199). -/
def State.memRead (s : State) (w : Width) (addr : Word) : Except Refusal Word :=
  if w.aligned addr then
    match Memory.loadBytes s.mem addr w.bytes with
    | .error a => .error (.unplacedByte a)
    | .ok bs => .ok (joinBytes Config.byteOrder bs)
  else .error .misalignedAccess

/-- `MemWrite(addr, n, v)` (R69). -/
def State.memWrite (s : State) (w : Width) (addr : Word) (v : Word) : Except Refusal State :=
  if w.aligned addr then
    .ok { s with mem := Memory.storeBytes addr (splitBytes Config.byteOrder w.bytes v) s.mem }
  else .error .misalignedAccess

/-- `abort_req(addr, kind)` (R67): the environment answers the access with an Abort request. -/
def State.abortReq (s : State) (addr : Word) (kind : AccessKind) : Bool :=
  s.inputs.aborts.any fun r => r.kind == kind && decide (r.first ≤ addr.toNat) && decide (addr.toNat ≤ r.last)

/-! ### Exceptions (60_exceptions.md R240 to R256) -/

/-- The mode an exception enters (R240). -/
def Exception.mode : Exception → ExcMode
  | .reset => .supervisor
  | .dataAbort => .abort
  | .fiq => .fiq
  | .irq => .irq
  | .prefetchAbort => .abort
  | .undefined => .undefined
  | .softwareInterrupt => .supervisor

/-- The place of an exception's slot in the vector table (R66, R240). -/
def Exception.slot : Exception → Word
  | .reset => 0x00#32
  | .undefined => 0x04#32
  | .softwareInterrupt => 0x08#32
  | .prefetchAbort => 0x0C#32
  | .dataAbort => 0x10#32
  | .irq => 0x18#32
  | .fiq => 0x1C#32

/-- The vector address: the word there is executed (R254; VECTOR_MODE = execute, D4). -/
def Exception.vector (e : Exception) : Word := Config.vectorBase + e.slot

/-- What the link value exceeds `A` by, in ARM state (R253). -/
def Exception.linkOffset : Exception → Word
  | .dataAbort => 8#32
  | .reset | .fiq | .irq | .prefetchAbort | .undefined | .softwareInterrupt => 4#32

/-- The exception's entry sets F as well as I (R255, D5). -/
def Exception.masksFiq : Exception → Bool
  | .reset | .fiq => true
  | .dataAbort | .irq | .prefetchAbort | .undefined | .softwareInterrupt => false

/-- The place in the order of falling priority, 1 the highest (R240, R250). -/
def Exception.priority : Exception → Nat
  | .reset => 1
  | .dataAbort => 2
  | .fiq => 3
  | .irq => 4
  | .prefetchAbort => 5
  | .undefined => 6
  | .softwareInterrupt => 7

/-- CPSR after an entry: M, T, I, and F where the exception masks it; N Z C V and bits 27:8 kept (R252, R255). -/
def Exception.statusAfter (e : Exception) (old : Word) : Word :=
  Psr.withControl old true (e.masksFiq || Psr.f old) false e.mode.mode.code

/-- The entry sequence of R252 with a given link value: R14 and the SPSR of the new mode, CPSR, pc. -/
def State.enter (s : State) (e : Exception) (link : Word) : State :=
  let saved := (s.setPhys e.mode.mode.r14 link).setSpsr e.mode s.cpsr
  { saved with cpsr := e.statusAfter s.cpsr, pc := e.vector }

/-- How many free values a Reset draws: thirty registers, five SPSRs and the upper status bits. -/
def resetDraws : Nat := 36

/-- Thirty free values, from the draw `first` on. (Irreducible, so that no proof unfolds the vector by accident: nothing
is known of its entries.) -/
@[irreducible] def freeRegisters (first : Nat) : Vector Word 30 := Vector.ofFn fun k => Config.freeWord (first + k.val)

/-- Reset taken in a run (70_reset_and_hazards.md R290): mode, T, I, F and pc as stated; every general register, SPSR,
flag and reserved bit is unspecified (R44, U14) and takes a free value; memory and inputs are not touched. -/
def State.takeReset (s : State) : State :=
  { s with
    regs := freeRegisters s.draws
    spsrFiq := Config.freeWord (s.draws + 30)
    spsrIrq := Config.freeWord (s.draws + 31)
    spsrSvc := Config.freeWord (s.draws + 32)
    spsrAbt := Config.freeWord (s.draws + 33)
    spsrUnd := Config.freeWord (s.draws + 34)
    cpsr := Exception.statusAfter .reset (Config.freeWord (s.draws + 35))
    pc := Exception.vector .reset
    draws := s.draws + resetDraws }

/-- Taking an exception, the one operation every entry goes through. `pc` is the address `A` of the instruction that
raises it, or of the next one not yet executed (R253). From THUMB state the link value is not in the source (R253, D27)
and is a free value; everything else is R252. `step` takes none from there (R235; assumption log 9). -/
def State.takeException (s : State) (e : Exception) : State :=
  match e with
  | .reset => s.takeReset
  | .dataAbort | .fiq | .irq | .prefetchAbort | .undefined | .softwareInterrupt =>
    if s.thumb then { s.enter e (Config.freeWord s.draws) with draws := s.draws + 1 }
    else s.enter e (s.pc + e.linkOffset)

/-- The return an exit instruction makes with correction `k` (R257; 41_data_processing.md R168, R169): CPSR from the
SPSR of the current mode, pc from R14 less `k`. -/
def State.exceptionReturn (s : State) (k : Word) : Result :=
  match s.mode with
  | none => .refused .illegalMode
  | some m =>
    match m.saved with
    | none => .refused .noSavedStatus
    | some e =>
      let target := s.readReg m .r14 - k
      let status := s.spsr e
      match Mode.ofCode (Psr.m status) with
      | none => .refused .illegalSavedMode
      | some _ =>
        if Psr.t status then .next { s with cpsr := status, pc := thumbTarget target }
        else if wordAligned target then .next { s with cpsr := status, pc := target }
        else .refused .misalignedTarget

/-- The exit instruction of an exception, as the amount it takes from R14 (R258); Reset has none. -/
def Exception.correction : Exception → Option Word
  | .reset => none
  | .dataAbort => some 8#32
  | .fiq | .irq | .prefetchAbort => some 4#32
  | .undefined | .softwareInterrupt => some 0#32

/-! ### Data accesses (R67, R199, R242), for the transfers the source gives no operation yet -/

/-- What a data access ends in. -/
inductive DataAccess (α : Type) where
  /-- The access is made. -/
  | done (a : α)
  /-- It is answered by an Abort request: the Data abort exception is taken (R242). -/
  | aborted (s : State)
  /-- It has no meaning, or reads a byte nothing has placed. -/
  | stopped (why : Refusal)
  deriving DecidableEq, Repr

/-- A data read by the instruction at pc. A misaligned one is refused whatever answers it (R65). -/
def State.dataRead (s : State) (w : Width) (addr : Word) : DataAccess Word :=
  if w.aligned addr && s.abortReq addr .read then .aborted (s.takeException .dataAbort)
  else
    match s.memRead w addr with
    | .ok v => .done v
    | .error why => .stopped why

/-- A data write by the instruction at pc. What an aborted write leaves in memory is not in the source (R67, U22): the
bytes addressed take a free value (assumption log 24). -/
def State.dataWrite (s : State) (w : Width) (addr : Word) (v : Word) : DataAccess State :=
  if s.abortReq addr .write then
    match s.memWrite w addr (Config.freeWord s.draws) with
    | .ok s' => .aborted ({ s' with draws := s.draws + 1 }.takeException .dataAbort)
    | .error why => .stopped why
  else
    match s.memWrite w addr v with
    | .ok s' => .done s'
    | .error why => .stopped why

end Sys2Proof.Machine
end

