-- ==== Sys2Proof/Machine/Branch.lean ====
section
/-! DEFINITION. Control transfer: B, BL, their conditional rows, and BX (40_control_transfer.md R130 to R132, R136). -/

namespace Sys2Proof.Machine

/-- B under condition `c` (R130): the one operation of its sixteen rows. -/
def branch (c : Cond) (rel : BitVec 24) (s : State) : Result :=
  whenPassed c s (.next { s with pc := branchTarget s.pc rel })

/-- BL under condition `c` (R131): R14 of the current mode takes the address of the following instruction. -/
def branchLink (c : Cond) (rel : BitVec 24) (s : State) : Result :=
  whenPassed c s <|
    match s.mode with
    | none => .refused .illegalMode
    | some m => .next { s.writeReg m .r14 (s.pc + 4#32) with pc := branchTarget s.pc rel }

/-- B (R130). -/
def execB (c : Cond) (rel : BitVec 24) (s : State) : Result := branch c rel s

/-- BL (R131). -/
def execBl (c : Cond) (rel : BitVec 24) (s : State) : Result := branchLink c rel s

/-- BX (R132): the target is Rn, the state its bit 0; R15 as Rn is refused (D31), an ARM-state target that is no
multiple of 4 too (D7). -/
def execBx (c : Cond) (rn : Reg) (s : State) : Result :=
  whenPassed c s <|
    match s.mode with
    | none => .refused .illegalMode
    | some m =>
      if rn = .r15 then .refused .bxOfR15
      else
        let v := s.readReg m rn
        if v.getLsbD 0 then .next { s with cpsr := Psr.withT s.cpsr true, pc := thumbTarget v }
        else if wordAligned v then .next { s with cpsr := Psr.withT s.cpsr false, pc := v }
        else .refused .misalignedTarget

/-! ### The conditional rows (R115, R136) -/

def execBeq (rel : BitVec 24) (s : State) : Result := branch .eq rel s
def execBne (rel : BitVec 24) (s : State) : Result := branch .ne rel s
def execBcs (rel : BitVec 24) (s : State) : Result := branch .cs rel s
def execBcc (rel : BitVec 24) (s : State) : Result := branch .cc rel s
def execBmi (rel : BitVec 24) (s : State) : Result := branch .mi rel s
def execBpl (rel : BitVec 24) (s : State) : Result := branch .pl rel s
def execBvs (rel : BitVec 24) (s : State) : Result := branch .vs rel s
def execBvc (rel : BitVec 24) (s : State) : Result := branch .vc rel s
def execBhi (rel : BitVec 24) (s : State) : Result := branch .hi rel s
def execBls (rel : BitVec 24) (s : State) : Result := branch .ls rel s
def execBge (rel : BitVec 24) (s : State) : Result := branch .ge rel s
def execBlt (rel : BitVec 24) (s : State) : Result := branch .lt rel s
def execBgt (rel : BitVec 24) (s : State) : Result := branch .gt rel s
def execBle (rel : BitVec 24) (s : State) : Result := branch .le rel s
def execBal (rel : BitVec 24) (s : State) : Result := branch .al rel s

def execBleq (rel : BitVec 24) (s : State) : Result := branchLink .eq rel s
def execBlne (rel : BitVec 24) (s : State) : Result := branchLink .ne rel s
def execBlcs (rel : BitVec 24) (s : State) : Result := branchLink .cs rel s
def execBlcc (rel : BitVec 24) (s : State) : Result := branchLink .cc rel s
def execBlmi (rel : BitVec 24) (s : State) : Result := branchLink .mi rel s
def execBlpl (rel : BitVec 24) (s : State) : Result := branchLink .pl rel s
def execBlvs (rel : BitVec 24) (s : State) : Result := branchLink .vs rel s
def execBlvc (rel : BitVec 24) (s : State) : Result := branchLink .vc rel s
def execBlhi (rel : BitVec 24) (s : State) : Result := branchLink .hi rel s
def execBlls (rel : BitVec 24) (s : State) : Result := branchLink .ls rel s
def execBlge (rel : BitVec 24) (s : State) : Result := branchLink .ge rel s
def execBllt (rel : BitVec 24) (s : State) : Result := branchLink .lt rel s
def execBlgt (rel : BitVec 24) (s : State) : Result := branchLink .gt rel s
def execBlle (rel : BitVec 24) (s : State) : Result := branchLink .le rel s
def execBlal (rel : BitVec 24) (s : State) : Result := branchLink .al rel s

end Sys2Proof.Machine
end

