-- ==== Sys2Proof/Machine/Coprocessor.lean ====
section
/-! DEFINITION. The coprocessor classes. The source describes no coprocessor and no operation (43_coprocessor.md R220
to R223): under a failing condition they only advance (30_encoding.md R94), under a passing one they are refused by name
(D21; assumption log 17). -/

namespace Sys2Proof.Machine

/-- Coprocessor data transfer (R221). -/
def execCoprocessorDataTransfer (c : Cond) (_p _u _n _w _l : Bool) (_rn : Reg) (_crd _cpNum : BitVec 4)
    (_offset : BitVec 8) (s : State) : Result :=
  whenPassed c s (.refused .coprocessorNotDescribed)

/-- Coprocessor data operation (R222). -/
def execCoprocessorDataOperation (c : Cond) (_cpOpcode _crn _crd _cpNum : BitVec 4) (_cp : BitVec 3)
    (_crm : BitVec 4) (s : State) : Result :=
  whenPassed c s (.refused .coprocessorNotDescribed)

/-- Coprocessor register transfer (R223). -/
def execCoprocessorRegisterTransfer (c : Cond) (_cpOpcode : BitVec 3) (_l : Bool) (_crn : BitVec 4) (_rd : Reg)
    (_cpNum : BitVec 4) (_cp : BitVec 3) (_crm : BitVec 4) (s : State) : Result :=
  whenPassed c s (.refused .coprocessorNotDescribed)

end Sys2Proof.Machine
end

