-- ==== Sys2Proof/Machine/DataProcessing.lean ====
section
/-! DEFINITION. Data processing, multiply and long multiply. The source gives these classes formats and no operation
(41_data_processing.md R170, R171): under a failing condition they only advance (30_encoding.md R94), under a passing
one they are refused by name (00_scope.md R4, D9; assumption log 17). What the format does tell, the second operand, is
written first. -/

namespace Sys2Proof.Machine

/-- The second operand a data-processing word holds (30_encoding.md R99); that of an exit instruction is the field its word
spells (R168, R169). None for a layout R99 does not give, and for an instruction with no Operand 2. -/
def secondOperand : Instr → Option Operand2
  | .dataProcessing _ i _ _ _ _ field => operand2OfField i field
  | .movsPcR14 _ => operand2OfField false 0x00E#12
  | .subsPcR14By4 _ => operand2OfField true 0x004#12
  | .subsPcR14By8 _ => operand2OfField true 0x008#12
  | .bx .. | .multiply .. | .longMultiply .. | .swap .. | .halfwordRegister .. | .halfwordImmediate .. | .undefined ..
  | .wordTransfer .. | .blockTransfer .. | .b .. | .bl .. | .coprocessorDataTransfer .. | .coprocessorDataOperation ..
  | .coprocessorRegisterTransfer .. | .swi .. | .conditionReserved _ => none
  | .beq _ | .bne _ | .bcs _ | .bcc _ | .bmi _ | .bpl _ | .bvs _ | .bvc _ | .bhi _ | .bls _ | .bge _ | .blt _ | .bgt _
  | .ble _ | .bal _ => none
  | .bleq _ | .blne _ | .blcs _ | .blcc _ | .blmi _ | .blpl _ | .blvs _ | .blvc _ | .blhi _ | .blls _ | .blge _ | .bllt _
  | .blgt _ | .blle _ | .blal _ => none

/-- Every data-processing word but the exit instructions (R170). -/
def execDataProcessing (c : Cond) (_i : Bool) (_opcode : BitVec 4) (_setFlags : Bool) (_rn _rd : Reg)
    (_operand2 : BitVec 12) (s : State) : Result :=
  whenPassed c s (.refused .dataProcessingOperationNotGiven)

/-- Multiply (R171). -/
def execMultiply (c : Cond) (_a _setFlags : Bool) (_rd _rn _rs _rm : Reg) (s : State) : Result :=
  whenPassed c s (.refused .multiplyOperationNotGiven)

/-- Long multiply (R171). -/
def execLongMultiply (c : Cond) (_u _a _setFlags : Bool) (_rdHi _rdLo _rs _rm : Reg) (s : State) : Result :=
  whenPassed c s (.refused .longMultiplyOperationNotGiven)

end Sys2Proof.Machine
end

