-- ==== Sys2Proof/Machine/Exceptional.lean ====
section
/-! DEFINITION. SWI, the undefined-instruction codes, the exit instructions, and the reserved condition
(40_control_transfer.md R133; 60_exceptions.md R241; 41_data_processing.md R168, R169; 30_encoding.md R93). -/

namespace Sys2Proof.Machine

/-- SWI (R133): takes Software interrupt; in FIQ mode it is refused (D16). The 24 bits are ignored (R109). -/
def execSwi (c : Cond) (_ignored : BitVec 24) (s : State) : Result :=
  whenPassed c s <|
    match s.mode with
    | none => .refused .illegalMode
    | some .fiq => .refused .swiInFiqMode
    | some _ => .next (s.takeException .softwareInterrupt)

/-- The undefined-instruction codes F9 (R105, R241): take Undefined instruction. -/
def execUndefined (c : Cond) (_high : BitVec 20) (_low : BitVec 4) (s : State) : Result :=
  whenPassed c s (.next (s.takeException .undefined))

/-- `MOVS PC, R14` (R168). -/
def execMovsPcR14 (c : Cond) (s : State) : Result := whenPassed c s (s.exceptionReturn 0#32)

/-- `SUBS PC, R14, #4` (R169). -/
def execSubsPcR14By4 (c : Cond) (s : State) : Result := whenPassed c s (s.exceptionReturn 4#32)

/-- `SUBS PC, R14, #8` (R169). -/
def execSubsPcR14By8 (c : Cond) (s : State) : Result := whenPassed c s (s.exceptionReturn 8#32)

/-- A word whose condition field is 0b1111: refused whatever its other bits (R93, D8). -/
def execConditionReserved (_bits : BitVec 28) (_s : State) : Result := .refused .conditionReserved

end Sys2Proof.Machine
end

