-- ==== Sys2Proof/Machine/Transfer.lean ====
section
/-! DEFINITION. The transfer classes: swap, halfword, word and byte, block. The source gives them formats and no
operation (42_data_transfer.md R194 to R198): under a failing condition they only advance (30_encoding.md R94), under a
passing one they are refused by name (D9; assumption log 17). What the formats do tell, the width and the direction of the
data (20_memory.md R68) and the address form (30_encoding.md R103, R104), is written first. -/

namespace Sys2Proof.Machine

/-! ### What the formats tell -/

/-- The width of the data where the table of R68 states it, and the direction where the format has the flag L. -/
structure TransferFormat where
  width : Option Width
  direction : Option AccessKind
  deriving DecidableEq, Repr

/-- 32 bits, or 8 bits when flag B is set (R68). -/
def wordOrByte (b : Bool) : Width := if b then .byte else .word

/-- The direction flag L gives (R68): set, from memory. The polarity is the spec's general knowledge (30_encoding.md R97, GK6;
assumption log 37). -/
def flagDirection (l : Bool) : AccessKind := if l then .read else .write

/-- The row of R68 for an instruction: a block transfer moves one word for each of its `listedRegisters`, a halfword transfer
16 bits whatever S and H are, a coprocessor data transfer a width not stated; swap has no flag L. None for an instruction of
no transfer class. -/
def transferFormat : Instr → Option TransferFormat
  | .wordTransfer _ _ _ _ b _ l _ _ _ => some { width := some (wordOrByte b), direction := some (flagDirection l) }
  | .halfwordRegister _ _ _ _ l _ _ _ _ _ => some { width := some .half, direction := some (flagDirection l) }
  | .halfwordImmediate _ _ _ _ l _ _ _ _ _ _ => some { width := some .half, direction := some (flagDirection l) }
  | .blockTransfer _ _ _ _ _ l _ _ => some { width := some .word, direction := some (flagDirection l) }
  | .swap _ b _ _ _ => some { width := some (wordOrByte b), direction := none }
  | .coprocessorDataTransfer _ _ _ _ _ l _ _ _ _ => some { width := none, direction := some (flagDirection l) }
  | .bx .. | .multiply .. | .longMultiply .. | .movsPcR14 _ | .subsPcR14By4 _ | .subsPcR14By8 _ | .dataProcessing ..
  | .undefined .. | .b .. | .bl .. | .coprocessorDataOperation .. | .coprocessorRegisterTransfer .. | .swi ..
  | .conditionReserved _ => none
  | .beq _ | .bne _ | .bcs _ | .bcc _ | .bmi _ | .bpl _ | .bvs _ | .bvc _ | .bhi _ | .bls _ | .bge _ | .blt _ | .bgt _
  | .ble _ | .bal _ => none
  | .bleq _ | .blne _ | .blcs _ | .blcc _ | .blmi _ | .blpl _ | .blvs _ | .blvc _ | .blhi _ | .blls _ | .blge _ | .bllt _
  | .blgt _ | .blle _ | .blal _ => none

/-- The address form a transfer's fields write (30_encoding.md R103, R104), for `State.address` to give its value. None where the
formats tell no address: block transfer (42_data_transfer.md R196), swap (R197), coprocessor data transfer (43_coprocessor.md
R221), and every instruction of no transfer class. -/
def transferAddress : Instr → Option AddressForm
  | .wordTransfer _ i p u _ w _ rn _ field =>
    match wordOffset i field with
    | none => none
    | some offset => some (indexedForm p u w rn offset)
  | .halfwordRegister _ p u w _ rn _ _ _ rm => some (indexedForm p u w rn (.register rm))
  | .halfwordImmediate _ p u w _ rn _ offsetHi _ _ offsetLo => some (indexedForm p u w rn (halfwordOffset offsetHi offsetLo))
  | .blockTransfer .. | .swap .. | .coprocessorDataTransfer .. => none
  | .bx .. | .multiply .. | .longMultiply .. | .movsPcR14 _ | .subsPcR14By4 _ | .subsPcR14By8 _ | .dataProcessing ..
  | .undefined .. | .b .. | .bl .. | .coprocessorDataOperation .. | .coprocessorRegisterTransfer .. | .swi ..
  | .conditionReserved _ => none
  | .beq _ | .bne _ | .bcs _ | .bcc _ | .bmi _ | .bpl _ | .bvs _ | .bvc _ | .bhi _ | .bls _ | .bge _ | .blt _ | .bgt _
  | .ble _ | .bal _ => none
  | .bleq _ | .blne _ | .blcs _ | .blcc _ | .blmi _ | .blpl _ | .blvs _ | .blvc _ | .blhi _ | .blls _ | .blge _ | .bllt _
  | .blgt _ | .blle _ | .blal _ => none

/-- The registers of a block transfer's list: bit i stands for Ri (30_encoding.md R106, GK12; assumption log 37). Their order
in memory is not in the source (R196). -/
def listedRegisters (list : BitVec 16) : List Reg :=
  ((List.range 16).filter list.getLsbD).map fun i => Reg.ofNum (BitVec.ofNat 4 i)

/-! ### Their meanings -/

/-- Swap (R197). -/
def execSwap (c : Cond) (_b : Bool) (_rn _rd _rm : Reg) (s : State) : Result :=
  whenPassed c s (.refused .swapOperationNotGiven)

/-- Halfword transfer, register offset (R195). -/
def execHalfwordRegister (c : Cond) (_p _u _w _l : Bool) (_rn _rd : Reg) (_signed _half : Bool) (_rm : Reg)
    (s : State) : Result :=
  whenPassed c s (.refused .halfwordTransferOperationNotGiven)

/-- Halfword transfer, immediate offset (R195). -/
def execHalfwordImmediate (c : Cond) (_p _u _w _l : Bool) (_rn _rd : Reg) (_offsetHi : BitVec 4)
    (_signed _half : Bool) (_offsetLo : BitVec 4) (s : State) : Result :=
  whenPassed c s (.refused .halfwordTransferOperationNotGiven)

/-- Word or byte transfer (R194). -/
def execWordTransfer (c : Cond) (_i _p _u _b _w _l : Bool) (_rn _rd : Reg) (_offset : BitVec 12) (s : State) :
    Result :=
  whenPassed c s (.refused .wordTransferOperationNotGiven)

/-- Block transfer, STM or LDM (R196). -/
def execBlockTransfer (c : Cond) (_p _u _sBit _w _l : Bool) (_rn : Reg) (_registerList : BitVec 16) (s : State) :
    Result :=
  whenPassed c s (.refused .blockTransferOperationNotGiven)

end Sys2Proof.Machine
end

