-- ==== Sys2Proof/Machine/Dispatch.lean ====
section
/-! DEFINITION. One arm for each constructor of Instr, each a direct call of its meaning. -/

namespace Sys2Proof.Machine

def exec (i : Instr) (s : State) : Host.Outcome State Fault Refusal :=
  match i with
  | .bx c rn => Sys2Proof.Machine.execBx c rn s
  | .multiply c a sf rd rn rs rm => Sys2Proof.Machine.execMultiply c a sf rd rn rs rm s
  | .longMultiply c u a sf rdHi rdLo rs rm => Sys2Proof.Machine.execLongMultiply c u a sf rdHi rdLo rs rm s
  | .swap c b rn rd rm => Sys2Proof.Machine.execSwap c b rn rd rm s
  | .halfwordRegister c p u w l rn rd sb h rm => Sys2Proof.Machine.execHalfwordRegister c p u w l rn rd sb h rm s
  | .halfwordImmediate c p u w l rn rd offsetHi sb h offsetLo => Sys2Proof.Machine.execHalfwordImmediate c p u w l rn rd offsetHi sb h offsetLo s
  | .movsPcR14 c => Sys2Proof.Machine.execMovsPcR14 c s
  | .subsPcR14By4 c => Sys2Proof.Machine.execSubsPcR14By4 c s
  | .subsPcR14By8 c => Sys2Proof.Machine.execSubsPcR14By8 c s
  | .dataProcessing c imm opcode sf rn rd operand2 => Sys2Proof.Machine.execDataProcessing c imm opcode sf rn rd operand2 s
  | .undefined c high low => Sys2Proof.Machine.execUndefined c high low s
  | .wordTransfer c imm p u b w l rn rd offset => Sys2Proof.Machine.execWordTransfer c imm p u b w l rn rd offset s
  | .blockTransfer c p u sb w l rn registerList => Sys2Proof.Machine.execBlockTransfer c p u sb w l rn registerList s
  | .b c rel => Sys2Proof.Machine.execB c rel s
  | .bl c rel => Sys2Proof.Machine.execBl c rel s
  | .coprocessorDataTransfer c p u n w l rn crd cpNum offset => Sys2Proof.Machine.execCoprocessorDataTransfer c p u n w l rn crd cpNum offset s
  | .coprocessorDataOperation c cpOpcode crn crd cpNum cp crm => Sys2Proof.Machine.execCoprocessorDataOperation c cpOpcode crn crd cpNum cp crm s
  | .coprocessorRegisterTransfer c cpOpcode l crn rd cpNum cp crm => Sys2Proof.Machine.execCoprocessorRegisterTransfer c cpOpcode l crn rd cpNum cp crm s
  | .swi c ignored => Sys2Proof.Machine.execSwi c ignored s
  | .beq rel => Sys2Proof.Machine.execBeq rel s
  | .bne rel => Sys2Proof.Machine.execBne rel s
  | .bcs rel => Sys2Proof.Machine.execBcs rel s
  | .bcc rel => Sys2Proof.Machine.execBcc rel s
  | .bmi rel => Sys2Proof.Machine.execBmi rel s
  | .bpl rel => Sys2Proof.Machine.execBpl rel s
  | .bvs rel => Sys2Proof.Machine.execBvs rel s
  | .bvc rel => Sys2Proof.Machine.execBvc rel s
  | .bhi rel => Sys2Proof.Machine.execBhi rel s
  | .bls rel => Sys2Proof.Machine.execBls rel s
  | .bge rel => Sys2Proof.Machine.execBge rel s
  | .blt rel => Sys2Proof.Machine.execBlt rel s
  | .bgt rel => Sys2Proof.Machine.execBgt rel s
  | .ble rel => Sys2Proof.Machine.execBle rel s
  | .bal rel => Sys2Proof.Machine.execBal rel s
  | .bleq rel => Sys2Proof.Machine.execBleq rel s
  | .blne rel => Sys2Proof.Machine.execBlne rel s
  | .blcs rel => Sys2Proof.Machine.execBlcs rel s
  | .blcc rel => Sys2Proof.Machine.execBlcc rel s
  | .blmi rel => Sys2Proof.Machine.execBlmi rel s
  | .blpl rel => Sys2Proof.Machine.execBlpl rel s
  | .blvs rel => Sys2Proof.Machine.execBlvs rel s
  | .blvc rel => Sys2Proof.Machine.execBlvc rel s
  | .blhi rel => Sys2Proof.Machine.execBlhi rel s
  | .blls rel => Sys2Proof.Machine.execBlls rel s
  | .blge rel => Sys2Proof.Machine.execBlge rel s
  | .bllt rel => Sys2Proof.Machine.execBllt rel s
  | .blgt rel => Sys2Proof.Machine.execBlgt rel s
  | .blle rel => Sys2Proof.Machine.execBlle rel s
  | .blal rel => Sys2Proof.Machine.execBlal rel s
  | .conditionReserved bits => Sys2Proof.Machine.execConditionReserved bits s

end Sys2Proof.Machine
end

