-- ==== Sys2Proof/Machine/Fetch.lean ====
section
/-! DEFINITION. What an instruction boundary does (60_exceptions.md R251): the inputs are sampled, and then either an
exception is due, or the instruction at pc is fetched and decoded, or the state has no step. -/

namespace Sys2Proof.Machine

/-- The environment presents its next levels, if it has any left (R43, R256; assumption log 8). -/
def State.sample (s : State) : State :=
  match s.upcoming with
  | [] => s
  | now :: later => { s with inputs := now, upcoming := later }

/-- `Fetch(A)`: the aligned word at pc (20_memory.md R63). -/
def State.fetchWord (s : State) : Except Refusal Word := s.memRead .word s.pc

/-- What is due at a boundary. -/
inductive Due where
  /-- An exception is taken instead of an instruction. -/
  | take (e : Exception)
  /-- The instruction at pc runs. -/
  | run (i : Instr)
  /-- The state has no step. -/
  | stop (why : Refusal)
  deriving DecidableEq, Repr

/-- What R251 gives, on the sampled inputs. First the states that have no step, whatever is requested: an illegal mode code (R35,
D15; assumption log 10), T = 1 (44_thumb_state.md R235, D10, U12; assumption log 9). Then Reset; FIQ unless masked; IRQ unless
masked; an aborted fetch; the fetch. -/
def State.due (s : State) : Due :=
  match s.mode with
  | none => .stop .illegalMode
  | some _ =>
    if s.thumb then .stop .thumbState
    else if s.inputs.reset then .take .reset
    else if s.inputs.fiq && !Psr.f s.cpsr then .take .fiq
    else if s.inputs.irq && !Psr.i s.cpsr then .take .irq
    else if s.abortReq s.pc .fetch then .take .prefetchAbort
    else
      match s.fetchWord with
      | .error why => .stop why
      | .ok w => .run (decodeWord w)

/-- The state with the low `nbits` bits of `w`, one instruction word, placed in the four bytes step fetches next. -/
def State.placeWord (s : State) (nbits w : Nat) : State :=
  { s with mem := Memory.storeBytes s.pc (splitBytes Config.byteOrder 4 (BitVec.ofNat 32 (w % 2 ^ nbits))) s.mem }

end Sys2Proof.Machine
end

