-- ==== Sys2Proof/Machine/Step.lean ====
section
/-! DEFINITION. One step of the core (60_exceptions.md R251): one instruction or one exception entry. -/

namespace Sys2Proof.Machine

/-- A step: sample the inputs, then take the exception due, or run the instruction at pc, or stop. -/
def step (s : State) : Host.Outcome State Fault Refusal :=
  match s.sample.due with
  | .take e => .next (s.sample.takeException e)
  | .run i => exec i s.sample
  | .stop r => .refused r

/-- `s` with one instruction word placed where `step` fetches next (assumption log 22). Only memory changes. -/
def State.withFetchWord (s : State) (nbits w : Nat) : State := s.placeWord nbits w

end Sys2Proof.Machine
end

