-- ==== Sys2Proof/Machine/Thumb.lean ====
section
/-! DEFINITION. The THUMB-state view of the registers (44_thumb_state.md R231 to R233; 10_state.md R40, R45): names for
registers the state already holds. The source gives no THUMB instruction (R235). -/

namespace Sys2Proof.Machine

/-- The registers THUMB state shows (R231). -/
inductive ThumbReg where
  | r0 | r1 | r2 | r3 | r4 | r5 | r6 | r7 | sp | lr | pc
  deriving DecidableEq, Repr

/-- The ARM-state register a THUMB-state register is (R232). -/
def ThumbReg.arm : ThumbReg → Reg
  | .r0 => .r0 | .r1 => .r1 | .r2 => .r2 | .r3 => .r3 | .r4 => .r4 | .r5 => .r5 | .r6 => .r6 | .r7 => .r7
  | .sp => .r13
  | .lr => .r14
  | .pc => .r15

/-- What a THUMB-state register names in a mode (R231). -/
def thumbBank (m : Mode) (r : ThumbReg) : Home := bank m r.arm

/-- The high registers R8 to R15, which THUMB state reaches only through special instructions (R233). -/
def regHigh : Reg → Bool
  | .r0 | .r1 | .r2 | .r3 | .r4 | .r5 | .r6 | .r7 => false
  | .r8 | .r9 | .r10 | .r11 | .r12 | .r13 | .r14 | .r15 => true

end Sys2Proof.Machine
end

