-- ==== Sys2Proof/Safety.lean ====
section
/-! DEFINITION. The vocabulary of claims: the states a run keeps to, what is raised at a boundary, where a run ends. -/

namespace Sys2Proof.Machine

/-- The mode code of CPSR is one of the seven (10_state.md R34, R35). -/
def State.modeLegal (s : State) : Bool := s.mode.isSome

/-- In ARM state bits 1:0 of pc are 0, in THUMB state bit 0 is (R26). -/
def State.pcAligned (s : State) : Bool := if s.thumb then !s.pc.getLsbD 0 else wordAligned s.pc

/-- The states a run may begin from (70_reset_and_hazards.md R292): a legal mode, ARM state, pc a multiple of 4. -/
def State.initial (s : State) : Bool := s.modeLegal && !s.thumb && wordAligned s.pc

/-- The invariant of a run: a legal mode, a pc aligned for the state it is in (R26, R35), canonical memory. It is wider than
`State.initial`: BX and the exit instructions can leave ARM state (R132, R168). -/
def State.wf (s : State) : Bool := s.modeLegal && s.pcAligned && Memory.wf s.mem

/-- No line of R251 before the last one applies: no exception is due, the mode is legal, the state is ARM. -/
def State.quiet (s : State) : Bool :=
  !s.inputs.reset && s.modeLegal && !(s.inputs.fiq && !Psr.f s.cpsr) && !(s.inputs.irq && !Psr.i s.cpsr) && !s.thumb
    && !s.abortReq s.pc .fetch

/-- The exceptions a boundary can raise, before any instruction runs: a request that is asserted and not masked, an
aborted fetch (R243, R245 to R247). The other three are raised by instructions. -/
def State.raises (s : State) : Exception → Bool
  | .reset => s.inputs.reset
  | .fiq => s.inputs.fiq && !Psr.f s.cpsr
  | .irq => s.inputs.irq && !Psr.i s.cpsr
  | .prefetchAbort => s.abortReq s.pc .fetch
  | .dataAbort | .undefined | .softwareInterrupt => false

/-- A step is safe when it has a next state. -/
def Safe (s : State) : Prop := ∃ t, step s = .next t

/-- The instruction's condition (30_encoding.md R91, R92, R136); a word with field 0b1111 has none (R93). -/
def instrCond : Instr → Option Cond
  | .bx c _ | .multiply c .. | .longMultiply c .. | .swap c .. | .halfwordRegister c .. | .halfwordImmediate c ..
  | .movsPcR14 c | .subsPcR14By4 c | .subsPcR14By8 c | .dataProcessing c .. | .undefined c .. | .wordTransfer c ..
  | .blockTransfer c .. | .b c _ | .bl c _ | .coprocessorDataTransfer c .. | .coprocessorDataOperation c ..
  | .coprocessorRegisterTransfer c .. | .swi c _ => some c
  | .beq _ | .bleq _ => some .eq
  | .bne _ | .blne _ => some .ne
  | .bcs _ | .blcs _ => some .cs
  | .bcc _ | .blcc _ => some .cc
  | .bmi _ | .blmi _ => some .mi
  | .bpl _ | .blpl _ => some .pl
  | .bvs _ | .blvs _ => some .vs
  | .bvc _ | .blvc _ => some .vc
  | .bhi _ | .blhi _ => some .hi
  | .bls _ | .blls _ => some .ls
  | .bge _ | .blge _ => some .ge
  | .blt _ | .bllt _ => some .lt
  | .bgt _ | .blgt _ => some .gt
  | .ble _ | .blle _ => some .le
  | .bal _ | .blal _ => some .al
  | .conditionReserved _ => none

/-- The exit instructions (60_exceptions.md R258) and the correction each makes. -/
def exitCorrection : Instr → Option Word
  | .movsPcR14 _ => some 0#32
  | .subsPcR14By4 _ => some 4#32
  | .subsPcR14By8 _ => some 8#32
  | _ => none

/-- The rows of B (R130, R136). -/
def isBranchRow : Instr → Bool
  | .b .. | .beq _ | .bne _ | .bcs _ | .bcc _ | .bmi _ | .bpl _ | .bvs _ | .bvc _ | .bhi _ | .bls _ | .bge _ | .blt _
  | .bgt _ | .ble _ | .bal _ => true
  | _ => false

/-- What ends a run (00_scope.md R8, D19): HALT is open, so a run takes it as an argument, asked of the state before each
step. -/
abbrev Halt := State → Bool

/-- At most `n` steps from `s`, ended by `halt` or by a stop. -/
def runUntil (halt : Halt) : Nat → State → Result
  | 0, s => .next s
  | n + 1, s =>
    if halt s then .next s
    else
      match step s with
      | .next t => runUntil halt n t
      | .fault f => .fault f
      | .refused r => .refused r

/-- The HALT of the spec's test programs (70_reset_and_hazards.md R295, D19): the instruction due is a taken branch to its own
address. R295 names only `B .`; that every row of B counts, under any condition that passes, and neither BL nor BX does, is a
DESIGN CHOICE (assumption log 35). -/
def branchToItself : Halt := fun s =>
  match s.sample.due with
  | .run i =>
    match exec i s.sample with
    | .next t => isBranchRow i && t.pc == s.pc
    | .fault _ => false
    | .refused _ => false
  | .take _ => false
  | .stop _ => false

end Sys2Proof.Machine
end

