-- ==== Sys2Proof/Certificates/Slice0/Obligations.lean ====
section
/-! DEFINITION. The statements, from the numbered rules of spec/. A statement whose rule the spec marks as its own
decision or inference, or that rests on a choice of the model, says so and has basis derived in OBLIGATIONS.json. -/

open Sys2Proof Sys2Proof.Machine

/-- For every well-formed instruction, decoding its word gives it back, B and BL as the conditional row of their condition
(30_encoding.md sections 3, 4; the row choice is the model's, assumption log 1). -/
def Obligations.DecodeOfEncodeIsTheRow : Prop :=
  ∀ i : Instr, i.wellFormed = true → decodeWord (encode i) = i.row

/-- Every word is the word of the instruction the decoder reads from it, and that instruction is well-formed
(30_encoding.md section 3: every word is classified). -/
def Obligations.EncodeOfDecodeIsTheWord : Prop :=
  ∀ w : Word, encode (decodeWord w) = w ∧ (decodeWord w).wellFormed = true

/-- Words of 95_test_vectors.md section 3 decode to the instruction of their class; the bytes stand in the order of
20_memory.md section 3 (D1). The table's "B, cond NE" and "BL" are read as their conditional rows, `bne` and `blal`: which of
the two rows that share the word the decoder answers is the model's choice (40_control_transfer.md section 1; assumption log
1). -/
def Obligations.WordsOfTheSpecDecode : Prop :=
  decodeWord 0xE12FFF1E#32 = .bx .al .r14
    ∧ decodeWord 0x012FFF10#32 = .bx .eq .r0
    ∧ decodeWord 0xE0010392#32 = .multiply .al false false .r1 .r0 .r3 .r2
    ∧ decodeWord 0xE0C10392#32 = .longMultiply .al true false false .r1 .r0 .r3 .r2
    ∧ decodeWord 0xE1400090#32 = .swap .al true .r0 .r0 .r0
    ∧ decodeWord 0xE19000D0#32 = .halfwordRegister .al true true false true .r0 .r0 true false .r0
    ∧ decodeWord 0xE1D000B0#32 = .halfwordImmediate .al true true false true .r0 .r0 0#4 false true 0#4
    ∧ decodeWord 0xE1B0F00E#32 = .movsPcR14 .al
    ∧ decodeWord 0xE25EF004#32 = .subsPcR14By4 .al
    ∧ decodeWord 0xE25EF008#32 = .subsPcR14By8 .al
    ∧ decodeWord 0xE25EF00C#32 = .dataProcessing .al true 0b0010#4 true .r14 .r15 0x00C#12
    ∧ decodeWord 0xE7F000F0#32 = .undefined .al 0xF8007#20 0#4
    ∧ decodeWord 0xE5910000#32 = .wordTransfer .al false true true false false true .r1 .r0 0#12
    ∧ decodeWord 0xE92D4000#32 = .blockTransfer .al true false false true false .r13 0x4000#16
    ∧ decodeWord 0x1A000002#32 = .bne 2#24
    ∧ decodeWord 0xEB00003E#32 = .blal 0x3E#24
    ∧ decodeWord 0xED900000#32 = .coprocessorDataTransfer .al true true false false true .r0 0#4 0#4 0#8
    ∧ decodeWord 0xEE000000#32 = .coprocessorDataOperation .al 0#4 0#4 0#4 0#4 0#3 0#4
    ∧ decodeWord 0xEE010F10#32 = .coprocessorRegisterTransfer .al 0#3 false 1#4 .r0 15#4 0#3 0#4
    ∧ decodeWord 0x0F123456#32 = .swi .eq 0x123456#24
    ∧ decodeWord 0xFA000000#32 = .conditionReserved 0xA000000#28
    ∧ decode [0x1E#8, 0xFF#8, 0x2F#8, 0xE1#8] = .ok (.bx .al .r14, [])

/-- The opcodes of 30_encoding.md section 7: the two hex digits and the 24-bit offset, for the eighteen listed rows and the
twelve formed the same way. -/
def Obligations.OpcodeListingOfTheBranchRows : Prop :=
  ∀ rel : BitVec 24,
    encode (.beq rel) = 0x0A#8 ++ rel
    ∧ encode (.bne rel) = 0x1A#8 ++ rel
    ∧ encode (.bcs rel) = 0x2A#8 ++ rel
    ∧ encode (.bcc rel) = 0x3A#8 ++ rel
    ∧ encode (.bmi rel) = 0x4A#8 ++ rel
    ∧ encode (.bpl rel) = 0x5A#8 ++ rel
    ∧ encode (.bvs rel) = 0x6A#8 ++ rel
    ∧ encode (.bvc rel) = 0x7A#8 ++ rel
    ∧ encode (.bhi rel) = 0x8A#8 ++ rel
    ∧ encode (.bls rel) = 0x9A#8 ++ rel
    ∧ encode (.bge rel) = 0xAA#8 ++ rel
    ∧ encode (.blt rel) = 0xBA#8 ++ rel
    ∧ encode (.bgt rel) = 0xCA#8 ++ rel
    ∧ encode (.ble rel) = 0xDA#8 ++ rel
    ∧ encode (.bal rel) = 0xEA#8 ++ rel
    ∧ encode (.bleq rel) = 0x0B#8 ++ rel
    ∧ encode (.blne rel) = 0x1B#8 ++ rel
    ∧ encode (.blcs rel) = 0x2B#8 ++ rel
    ∧ encode (.blcc rel) = 0x3B#8 ++ rel
    ∧ encode (.blmi rel) = 0x4B#8 ++ rel
    ∧ encode (.blpl rel) = 0x5B#8 ++ rel
    ∧ encode (.blvs rel) = 0x6B#8 ++ rel
    ∧ encode (.blvc rel) = 0x7B#8 ++ rel
    ∧ encode (.blhi rel) = 0x8B#8 ++ rel
    ∧ encode (.blls rel) = 0x9B#8 ++ rel
    ∧ encode (.blge rel) = 0xAB#8 ++ rel
    ∧ encode (.bllt rel) = 0xBB#8 ++ rel
    ∧ encode (.blgt rel) = 0xCB#8 ++ rel
    ∧ encode (.blle rel) = 0xDB#8 ++ rel
    ∧ encode (.blal rel) = 0xEB#8 ++ rel

/-- The property of 95_test_vectors.md section 2: each even code is the negation of the odd code after it, and AL always
passes, whatever the status word. -/
def Obligations.PairedConditionsAreComplements : Prop :=
  ∀ p : Word,
    condPassed .eq p = !condPassed .ne p
    ∧ condPassed .cs p = !condPassed .cc p
    ∧ condPassed .mi p = !condPassed .pl p
    ∧ condPassed .vs p = !condPassed .vc p
    ∧ condPassed .hi p = !condPassed .ls p
    ∧ condPassed .ge p = !condPassed .lt p
    ∧ condPassed .gt p = !condPassed .le p
    ∧ condPassed .al p = true

/-- An instruction whose condition fails has no effect but pc := A + 4, in every class (30_encoding.md section 2, the spec's
decision D29). -/
def Obligations.FailedConditionOnlyAdvances : Prop :=
  ∀ (i : Instr) (c : Cond) (s : State), instrCond i = some c → condPassed c s.cpsr = false →
    exec i s = .next { s with pc := s.pc + 4#32 }

/-- B under any condition field (40_control_transfer.md, B; the 8 and the shift of 2 are the spec's D2 and D3, the failing
case its D29). -/
def Obligations.BranchUnderAnyCondition : Prop :=
  ∀ (c : Cond) (rel : BitVec 24) (s : State),
    exec (.b c rel) s = .next { s with pc := if condPassed c s.cpsr then s.pc + 8#32 + (rel.signExtend 32 <<< 2) else s.pc + 4#32 }

/-- The fifteen conditional rows of B: taken exactly when the flags of 30_encoding.md section 2 say so (N Z C V at bits 31 to
28, the spec's GK2), to A + 8 plus the offset (D2, D3), else A + 4 (D29); nothing else changes. -/
def Obligations.ConditionalBranchRowsFollowTheFlags : Prop :=
  ∀ (rel : BitVec 24) (s : State),
    exec (.beq rel) s = .next { s with pc := if s.cpsr.getLsbD 30 then s.pc + 8#32 + (rel.signExtend 32 <<< 2) else s.pc + 4#32 }
    ∧ exec (.bne rel) s = .next { s with pc := if !s.cpsr.getLsbD 30 then s.pc + 8#32 + (rel.signExtend 32 <<< 2) else s.pc + 4#32 }
    ∧ exec (.bcs rel) s = .next { s with pc := if s.cpsr.getLsbD 29 then s.pc + 8#32 + (rel.signExtend 32 <<< 2) else s.pc + 4#32 }
    ∧ exec (.bcc rel) s = .next { s with pc := if !s.cpsr.getLsbD 29 then s.pc + 8#32 + (rel.signExtend 32 <<< 2) else s.pc + 4#32 }
    ∧ exec (.bmi rel) s = .next { s with pc := if s.cpsr.getLsbD 31 then s.pc + 8#32 + (rel.signExtend 32 <<< 2) else s.pc + 4#32 }
    ∧ exec (.bpl rel) s = .next { s with pc := if !s.cpsr.getLsbD 31 then s.pc + 8#32 + (rel.signExtend 32 <<< 2) else s.pc + 4#32 }
    ∧ exec (.bvs rel) s = .next { s with pc := if s.cpsr.getLsbD 28 then s.pc + 8#32 + (rel.signExtend 32 <<< 2) else s.pc + 4#32 }
    ∧ exec (.bvc rel) s = .next { s with pc := if !s.cpsr.getLsbD 28 then s.pc + 8#32 + (rel.signExtend 32 <<< 2) else s.pc + 4#32 }
    ∧ exec (.bhi rel) s = .next { s with pc := if s.cpsr.getLsbD 29 && !s.cpsr.getLsbD 30 then s.pc + 8#32 + (rel.signExtend 32 <<< 2) else s.pc + 4#32 }
    ∧ exec (.bls rel) s = .next { s with pc := if !s.cpsr.getLsbD 29 || s.cpsr.getLsbD 30 then s.pc + 8#32 + (rel.signExtend 32 <<< 2) else s.pc + 4#32 }
    ∧ exec (.bge rel) s = .next { s with pc := if s.cpsr.getLsbD 31 == s.cpsr.getLsbD 28 then s.pc + 8#32 + (rel.signExtend 32 <<< 2) else s.pc + 4#32 }
    ∧ exec (.blt rel) s = .next { s with pc := if s.cpsr.getLsbD 31 != s.cpsr.getLsbD 28 then s.pc + 8#32 + (rel.signExtend 32 <<< 2) else s.pc + 4#32 }
    ∧ exec (.bgt rel) s = .next { s with pc := if !s.cpsr.getLsbD 30 && s.cpsr.getLsbD 31 == s.cpsr.getLsbD 28 then s.pc + 8#32 + (rel.signExtend 32 <<< 2) else s.pc + 4#32 }
    ∧ exec (.ble rel) s = .next { s with pc := if s.cpsr.getLsbD 30 || s.cpsr.getLsbD 31 != s.cpsr.getLsbD 28 then s.pc + 8#32 + (rel.signExtend 32 <<< 2) else s.pc + 4#32 }
    ∧ exec (.bal rel) s = .next { s with pc := if true then s.pc + 8#32 + (rel.signExtend 32 <<< 2) else s.pc + 4#32 }

/-- BL in a legal mode: R14 of the mode takes A + 4, pc the branch target (40_control_transfer.md, BL; D2, D3); under a
failing condition neither (D29). -/
def Obligations.BranchWithLinkUnderAnyCondition : Prop :=
  ∀ (c : Cond) (rel : BitVec 24) (s : State) (m : Mode), s.mode = some m →
    (condPassed c s.cpsr = true → exec (.bl c rel) s = .next { s.setPhys m.r14 (s.pc + 4#32) with pc := s.pc + 8#32 + (rel.signExtend 32 <<< 2) })
    ∧ (condPassed c s.cpsr = false → exec (.bl c rel) s = .next { s with pc := s.pc + 4#32 })

/-- The fifteen conditional rows of BL in a legal mode: link and branch exactly when the flags say so. -/
def Obligations.ConditionalLinkRowsFollowTheFlags : Prop :=
  ∀ (rel : BitVec 24) (s : State) (m : Mode), s.mode = some m →
    let linked := { s.setPhys m.r14 (s.pc + 4#32) with pc := s.pc + 8#32 + (rel.signExtend 32 <<< 2) }
    let passedOver := { s with pc := s.pc + 4#32 }
    exec (.bleq rel) s = .next (if s.cpsr.getLsbD 30 then linked else passedOver)
    ∧ exec (.blne rel) s = .next (if !s.cpsr.getLsbD 30 then linked else passedOver)
    ∧ exec (.blcs rel) s = .next (if s.cpsr.getLsbD 29 then linked else passedOver)
    ∧ exec (.blcc rel) s = .next (if !s.cpsr.getLsbD 29 then linked else passedOver)
    ∧ exec (.blmi rel) s = .next (if s.cpsr.getLsbD 31 then linked else passedOver)
    ∧ exec (.blpl rel) s = .next (if !s.cpsr.getLsbD 31 then linked else passedOver)
    ∧ exec (.blvs rel) s = .next (if s.cpsr.getLsbD 28 then linked else passedOver)
    ∧ exec (.blvc rel) s = .next (if !s.cpsr.getLsbD 28 then linked else passedOver)
    ∧ exec (.blhi rel) s = .next (if s.cpsr.getLsbD 29 && !s.cpsr.getLsbD 30 then linked else passedOver)
    ∧ exec (.blls rel) s = .next (if !s.cpsr.getLsbD 29 || s.cpsr.getLsbD 30 then linked else passedOver)
    ∧ exec (.blge rel) s = .next (if s.cpsr.getLsbD 31 == s.cpsr.getLsbD 28 then linked else passedOver)
    ∧ exec (.bllt rel) s = .next (if s.cpsr.getLsbD 31 != s.cpsr.getLsbD 28 then linked else passedOver)
    ∧ exec (.blgt rel) s = .next (if !s.cpsr.getLsbD 30 && s.cpsr.getLsbD 31 == s.cpsr.getLsbD 28 then linked else passedOver)
    ∧ exec (.blle rel) s = .next (if s.cpsr.getLsbD 30 || s.cpsr.getLsbD 31 != s.cpsr.getLsbD 28 then linked else passedOver)
    ∧ exec (.blal rel) s = .next (if true then linked else passedOver)

/-- The conditional rows are B and BL with the condition field set to the suffix's code, and R14 is written only when the
condition passes (40_control_transfer.md section 1, 30_encoding.md section 7). The source lists sixteen of them besides B and
BL under AL; the rows of CS, CC, MI, PL, LT, LE are the spec's own derivation, with condition numbers it presumes
(assumption log 28), and that each is a constructor of its own is the model's choice (log 1). -/
def Obligations.ConditionalRowsAreBAndBl : Prop :=
  ∀ (rel : BitVec 24) (s : State),
    (encode (.beq rel) = encode (.b .eq rel) ∧ exec (.beq rel) s = exec (.b .eq rel) s)
    ∧ (encode (.bne rel) = encode (.b .ne rel) ∧ exec (.bne rel) s = exec (.b .ne rel) s)
    ∧ (encode (.bcs rel) = encode (.b .cs rel) ∧ exec (.bcs rel) s = exec (.b .cs rel) s)
    ∧ (encode (.bcc rel) = encode (.b .cc rel) ∧ exec (.bcc rel) s = exec (.b .cc rel) s)
    ∧ (encode (.bmi rel) = encode (.b .mi rel) ∧ exec (.bmi rel) s = exec (.b .mi rel) s)
    ∧ (encode (.bpl rel) = encode (.b .pl rel) ∧ exec (.bpl rel) s = exec (.b .pl rel) s)
    ∧ (encode (.bvs rel) = encode (.b .vs rel) ∧ exec (.bvs rel) s = exec (.b .vs rel) s)
    ∧ (encode (.bvc rel) = encode (.b .vc rel) ∧ exec (.bvc rel) s = exec (.b .vc rel) s)
    ∧ (encode (.bhi rel) = encode (.b .hi rel) ∧ exec (.bhi rel) s = exec (.b .hi rel) s)
    ∧ (encode (.bls rel) = encode (.b .ls rel) ∧ exec (.bls rel) s = exec (.b .ls rel) s)
    ∧ (encode (.bge rel) = encode (.b .ge rel) ∧ exec (.bge rel) s = exec (.b .ge rel) s)
    ∧ (encode (.blt rel) = encode (.b .lt rel) ∧ exec (.blt rel) s = exec (.b .lt rel) s)
    ∧ (encode (.bgt rel) = encode (.b .gt rel) ∧ exec (.bgt rel) s = exec (.b .gt rel) s)
    ∧ (encode (.ble rel) = encode (.b .le rel) ∧ exec (.ble rel) s = exec (.b .le rel) s)
    ∧ (encode (.bal rel) = encode (.b .al rel) ∧ exec (.bal rel) s = exec (.b .al rel) s)
    ∧ (encode (.bleq rel) = encode (.bl .eq rel) ∧ exec (.bleq rel) s = exec (.bl .eq rel) s)
    ∧ (encode (.blne rel) = encode (.bl .ne rel) ∧ exec (.blne rel) s = exec (.bl .ne rel) s)
    ∧ (encode (.blcs rel) = encode (.bl .cs rel) ∧ exec (.blcs rel) s = exec (.bl .cs rel) s)
    ∧ (encode (.blcc rel) = encode (.bl .cc rel) ∧ exec (.blcc rel) s = exec (.bl .cc rel) s)
    ∧ (encode (.blmi rel) = encode (.bl .mi rel) ∧ exec (.blmi rel) s = exec (.bl .mi rel) s)
    ∧ (encode (.blpl rel) = encode (.bl .pl rel) ∧ exec (.blpl rel) s = exec (.bl .pl rel) s)
    ∧ (encode (.blvs rel) = encode (.bl .vs rel) ∧ exec (.blvs rel) s = exec (.bl .vs rel) s)
    ∧ (encode (.blvc rel) = encode (.bl .vc rel) ∧ exec (.blvc rel) s = exec (.bl .vc rel) s)
    ∧ (encode (.blhi rel) = encode (.bl .hi rel) ∧ exec (.blhi rel) s = exec (.bl .hi rel) s)
    ∧ (encode (.blls rel) = encode (.bl .ls rel) ∧ exec (.blls rel) s = exec (.bl .ls rel) s)
    ∧ (encode (.blge rel) = encode (.bl .ge rel) ∧ exec (.blge rel) s = exec (.bl .ge rel) s)
    ∧ (encode (.bllt rel) = encode (.bl .lt rel) ∧ exec (.bllt rel) s = exec (.bl .lt rel) s)
    ∧ (encode (.blgt rel) = encode (.bl .gt rel) ∧ exec (.blgt rel) s = exec (.bl .gt rel) s)
    ∧ (encode (.blle rel) = encode (.bl .le rel) ∧ exec (.blle rel) s = exec (.bl .le rel) s)
    ∧ (encode (.blal rel) = encode (.bl .al rel) ∧ exec (.blal rel) s = exec (.bl .al rel) s)
    ∧ ∀ (c : Cond) (t : State), exec (.bl c rel) s = .next t → condPassed c s.cpsr = false → t.regs = s.regs

/-- BX with bit 0 of Rn clear and the target a multiple of 4 (40_control_transfer.md, BX): pc := Rn, T := 0, the rest of CPSR
and all else unchanged. -/
def Obligations.BranchAndExchangeToArmState : Prop :=
  ∀ (c : Cond) (rn : Reg) (s : State) (m : Mode), s.mode = some m → rn ≠ .r15 → condPassed c s.cpsr = true →
    (s.readReg m rn).extractLsb' 0 2 = 0#2 →
    ∃ t, exec (.bx c rn) s = .next { s with cpsr := t, pc := s.readReg m rn } ∧ t.getLsbD 5 = false
      ∧ ∀ k, k ≠ 5 → t.getLsbD k = s.cpsr.getLsbD k

/-- BX with bit 0 of Rn set (40_control_transfer.md, BX): T := 1, pc := Rn[31:1] : 0. -/
def Obligations.BranchAndExchangeToThumbState : Prop :=
  ∀ (c : Cond) (rn : Reg) (s : State) (m : Mode), s.mode = some m → rn ≠ .r15 → condPassed c s.cpsr = true →
    (s.readReg m rn).getLsbD 0 = true →
    ∃ t, exec (.bx c rn) s = .next { s with cpsr := t, pc := s.readReg m rn - 1#32 } ∧ t.getLsbD 5 = true
      ∧ ∀ k, k ≠ 5 → t.getLsbD k = s.cpsr.getLsbD k

/-- Where BX has no meaning: Rn = R15 (the spec's D31), and an ARM-state target that is no multiple of 4 (D7). -/
def Obligations.BranchAndExchangeRefusals : Prop :=
  ∀ (c : Cond) (rn : Reg) (s : State) (m : Mode), s.mode = some m → condPassed c s.cpsr = true →
    exec (.bx c .r15) s = .refused .bxOfR15
    ∧ (rn ≠ .r15 → (s.readReg m rn).extractLsb' 0 2 = 2#2 → exec (.bx c rn) s = .refused .misalignedTarget)

/-- BL and then BX R14 (40_control_transfer.md, return from a subroutine, an inference the spec marks as its own): back at the
instruction after the BL, in ARM state, with the same status. -/
def Obligations.ReturnFromSubroutineByBx : Prop :=
  ∀ (c : Cond) (rel : BitVec 24) (s t : State), s.modeLegal = true → s.thumb = false → s.pc.extractLsb' 0 2 = 0#2 →
    condPassed c s.cpsr = true → exec (.bl c rel) s = .next t →
    exec (.bx .al .r14) t = .next { t with pc := s.pc + 4#32 }

/-- R244: SWI with a passing condition goes to Supervisor mode with link A + 4; outside FIQ mode, where it is refused
(SoftwareInterruptRefusedInFiqMode), and from ARM state. The ignored bits do not matter. -/
def Obligations.SoftwareInterruptEntersSupervisor : Prop :=
  ∀ (c : Cond) (ignored : BitVec 24) (s : State) (m : Mode), s.mode = some m → m ≠ .fiq → s.thumb = false →
    condPassed c s.cpsr = true →
    ∃ t, exec (.swi c ignored) s = .next t ∧ t.mode = some .supervisor ∧ t.phys .r14Svc = s.pc + 4#32

/-- The whole effect of SWI (40_control_transfer.md, SWI; vector and masks are the spec's D4 and D5): R14_svc, SPSR_svc, M, T,
I and pc; F, the flags, the reserved bits and all else unchanged. -/
def Obligations.SoftwareInterruptNextState : Prop :=
  ∀ (c : Cond) (ignored : BitVec 24) (s : State) (m : Mode), s.mode = some m → m ≠ .fiq → s.thumb = false →
    condPassed c s.cpsr = true →
    ∃ st, exec (.swi c ignored) s =
        .next { s.setPhys .r14Svc (s.pc + 4#32) with spsrSvc := s.cpsr, cpsr := st, pc := 0x00000008#32 }
      ∧ st.extractLsb' 8 24 = s.cpsr.extractLsb' 8 24 ∧ st.getLsbD 7 = true ∧ st.getLsbD 6 = s.cpsr.getLsbD 6
      ∧ st.getLsbD 5 = false ∧ st.extractLsb' 0 5 = 0b10011#5

/-- SWI in FIQ mode is refused (the spec's D16). -/
def Obligations.SoftwareInterruptRefusedInFiqMode : Prop :=
  ∀ (c : Cond) (ignored : BitVec 24) (s : State), s.mode = some .fiq → condPassed c s.cpsr = true →
    exec (.swi c ignored) s = .refused .swiInFiqMode

/-- The undefined instruction codes take the Undefined instruction exception (60_exceptions.md section 1; link, masks and
vector are the spec's D26, D5, D4). -/
def Obligations.UndefinedCodeTrapNextState : Prop :=
  ∀ (c : Cond) (high : BitVec 20) (low : BitVec 4) (s : State), s.thumb = false → condPassed c s.cpsr = true →
    ∃ st, exec (.undefined c high low) s =
        .next { s.setPhys .r14Und (s.pc + 4#32) with spsrUnd := s.cpsr, cpsr := st, pc := 0x00000004#32 }
      ∧ st.extractLsb' 8 24 = s.cpsr.extractLsb' 8 24 ∧ st.getLsbD 7 = true ∧ st.getLsbD 6 = s.cpsr.getLsbD 6
      ∧ st.getLsbD 5 = false ∧ st.extractLsb' 0 5 = 0b11011#5

/-- The three exit instructions (41_data_processing.md section 3; that they restore CPSR is the spec's D32, their encodings its
GK8 and GK9): in a mode with an SPSR that holds a legal mode code, CPSR := SPSR and pc := R14 less the correction, to an
aligned address in ARM state or with bit 0 cleared in THUMB state. -/
def Obligations.ExitInstructionNextState : Prop :=
  ∀ (c : Cond) (s : State) (m : Mode) (e : ExcMode) (i : Instr) (k : Word), s.mode = some m → m.saved = some e →
    condPassed c s.cpsr = true → (Mode.ofCode (Psr.m (s.spsr e))).isSome = true →
    ((i = .movsPcR14 c ∧ k = 0#32) ∨ (i = .subsPcR14By4 c ∧ k = 4#32) ∨ (i = .subsPcR14By8 c ∧ k = 8#32)) →
    ((s.spsr e).getLsbD 5 = false → (s.phys m.r14 - k).extractLsb' 0 2 = 0#2 →
        exec i s = .next { s with cpsr := s.spsr e, pc := s.phys m.r14 - k })
    ∧ ((s.spsr e).getLsbD 5 = true →
        exec i s = .next { s with cpsr := s.spsr e, pc := (s.phys m.r14 - k) &&& 0xFFFFFFFE#32 })

/-- Where the exit instructions have no meaning: no SPSR (the spec's D17), an illegal mode code in it (D15), a misaligned
ARM-state target (D7). -/
def Obligations.ExitInstructionRefusals : Prop :=
  ∀ (c : Cond) (s : State) (m : Mode) (i : Instr) (k : Word), s.mode = some m → condPassed c s.cpsr = true →
    ((i = .movsPcR14 c ∧ k = 0#32) ∨ (i = .subsPcR14By4 c ∧ k = 4#32) ∨ (i = .subsPcR14By8 c ∧ k = 8#32)) →
    ((m = .user ∨ m = .system) → exec i s = .refused .noSavedStatus)
    ∧ (∀ e, m.saved = some e →
        (Mode.ofCode (Psr.m (s.spsr e)) = none → exec i s = .refused .illegalSavedMode)
        ∧ ((Mode.ofCode (Psr.m (s.spsr e))).isSome = true → (s.spsr e).getLsbD 5 = false →
            (s.phys m.r14 - k).extractLsb' 0 2 ≠ 0#2 → exec i s = .refused .misalignedTarget))

/-- Table 1.5 (60_exceptions.md section 4): from every legal-mode ARM state with an aligned pc, taking any exception but Reset
and then running its exit instruction resumes at the place the link table gives (an inference the spec marks as its own,
D26) with the old status; only the handler's R14 and SPSR differ. -/
def Obligations.ExitUndoesExceptionEntry : Prop :=
  ∀ (s : State) (e : Exception) (i : Instr), s.wf = true → s.thumb = false →
    ((e = .undefined ∨ e = .softwareInterrupt) ∧ i = .movsPcR14 .al
      ∨ (e = .prefetchAbort ∨ e = .irq ∨ e = .fiq) ∧ i = .subsPcR14By4 .al
      ∨ e = .dataAbort ∧ i = .subsPcR14By8 .al) →
    ∃ u, exec i (s.takeException e) = .next u ∧ u.cpsr = s.cpsr
      ∧ u.pc = (if e = .undefined ∨ e = .softwareInterrupt then s.pc + 4#32 else s.pc)
      ∧ (∀ p, p ≠ e.mode.mode.r14 → u.phys p = s.phys p) ∧ u.mem = s.mem
      ∧ ∀ x, x ≠ e.mode → u.spsr x = s.spsr x

/-- Data processing, multiply, long multiply: the second operand is read from its field as 30_encoding.md section 4 lays it out
(the spec's general knowledge GK8, assumption log 39; that LSL #0 is the plain register is read from the word of MOVS PC, R14,
log 40), which gives the exit instructions R14, 4 and 8; no operation is given (41_data_processing.md section 4, the spec's
D9), and under a failing condition they complete as the advance alone (D29). -/
def Obligations.DataProcessingFamilyAdvancesOrIsRefused : Prop :=
  ∀ (c : Cond) (u a sf imm : Bool) (opcode : BitVec 4) (rn rd rs rm : Reg) (operand2 : BitVec 12) (s : State),
    (condPassed c s.cpsr = false → exec (.dataProcessing c imm opcode sf rn rd operand2) s = .next { s with pc := s.pc + 4#32 })
    ∧ (condPassed c s.cpsr = true → exec (.dataProcessing c imm opcode sf rn rd operand2) s = .refused .dataProcessingOperationNotGiven)
    ∧ (condPassed c s.cpsr = false → exec (.multiply c a sf rd rn rs rm) s = .next { s with pc := s.pc + 4#32 })
    ∧ (condPassed c s.cpsr = true → exec (.multiply c a sf rd rn rs rm) s = .refused .multiplyOperationNotGiven)
    ∧ (condPassed c s.cpsr = false → exec (.longMultiply c u a sf rn rd rs rm) s = .next { s with pc := s.pc + 4#32 })
    ∧ (condPassed c s.cpsr = true → exec (.longMultiply c u a sf rn rd rs rm) s = .refused .longMultiplyOperationNotGiven)
    ∧ secondOperand (.dataProcessing c true opcode sf rn rd operand2)
        = some (.immediate (((operand2.extractLsb' 0 8).setWidth 32).rotateRight (2 * (operand2.extractLsb' 8 4).toNat)))
    ∧ (operand2.getLsbD 4 = false → operand2.extractLsb' 5 7 ≠ 0#7 →
        secondOperand (.dataProcessing c false opcode sf rn rd operand2)
          = some (.scaled (Reg.ofNum (operand2.extractLsb' 0 4)) (ShiftOp.ofField (operand2.extractLsb' 5 2))
              (operand2.extractLsb' 7 5).toNat))
    ∧ (operand2.getLsbD 4 = false → operand2.extractLsb' 5 7 = 0#7 →
        secondOperand (.dataProcessing c false opcode sf rn rd operand2)
          = some (.register (Reg.ofNum (operand2.extractLsb' 0 4))))
    ∧ (operand2.getLsbD 4 = true → operand2.getLsbD 7 = false →
        secondOperand (.dataProcessing c false opcode sf rn rd operand2)
          = some (.registerShifted (Reg.ofNum (operand2.extractLsb' 0 4)) (ShiftOp.ofField (operand2.extractLsb' 5 2))
              (Reg.ofNum (operand2.extractLsb' 8 4))))
    ∧ (ShiftOp.ofField 0b00#2 = .lsl ∧ ShiftOp.ofField 0b01#2 = .lsr ∧ ShiftOp.ofField 0b10#2 = .asr
        ∧ ShiftOp.ofField 0b11#2 = .ror)
    ∧ secondOperand (.movsPcR14 c) = some (.register .r14) ∧ secondOperand (.subsPcR14By4 c) = some (.immediate 4#32)
    ∧ secondOperand (.subsPcR14By8 c) = some (.immediate 8#32)

/-- Swap, halfword, word and byte, block transfer: the width each moves, and the direction of those with the flag L, are those of
20_memory.md section 4 (the polarity of L and the places of the list are the spec's general knowledge, assumption log 37); no
operation is given (42_data_transfer.md section 2, D9), and under a failing condition they complete as the advance alone
(D29). -/
def Obligations.TransferFamilyAdvancesOrIsRefused : Prop :=
  ∀ (c : Cond) (i p u b w l sb h : Bool) (rn rd rm : Reg) (hi lo : BitVec 4) (offset : BitVec 12) (list : BitVec 16)
    (s : State),
    (condPassed c s.cpsr = false → exec (.swap c b rn rd rm) s = .next { s with pc := s.pc + 4#32 })
    ∧ (condPassed c s.cpsr = true → exec (.swap c b rn rd rm) s = .refused .swapOperationNotGiven)
    ∧ (condPassed c s.cpsr = false → exec (.halfwordRegister c p u w l rn rd sb h rm) s = .next { s with pc := s.pc + 4#32 })
    ∧ (condPassed c s.cpsr = true → exec (.halfwordRegister c p u w l rn rd sb h rm) s = .refused .halfwordTransferOperationNotGiven)
    ∧ (condPassed c s.cpsr = false → exec (.halfwordImmediate c p u w l rn rd hi sb h lo) s = .next { s with pc := s.pc + 4#32 })
    ∧ (condPassed c s.cpsr = true → exec (.halfwordImmediate c p u w l rn rd hi sb h lo) s = .refused .halfwordTransferOperationNotGiven)
    ∧ (condPassed c s.cpsr = false → exec (.wordTransfer c i p u b w l rn rd offset) s = .next { s with pc := s.pc + 4#32 })
    ∧ (condPassed c s.cpsr = true → exec (.wordTransfer c i p u b w l rn rd offset) s = .refused .wordTransferOperationNotGiven)
    ∧ (condPassed c s.cpsr = false → exec (.blockTransfer c p u sb w l rn list) s = .next { s with pc := s.pc + 4#32 })
    ∧ (condPassed c s.cpsr = true → exec (.blockTransfer c p u sb w l rn list) s = .refused .blockTransferOperationNotGiven)
    ∧ transferFormat (.swap c b rn rd rm) = some { width := some (if b then .byte else .word), direction := none }
    ∧ transferFormat (.halfwordRegister c p u w l rn rd sb h rm)
        = some { width := some .half, direction := some (if l then .read else .write) }
    ∧ transferFormat (.halfwordImmediate c p u w l rn rd hi sb h lo)
        = some { width := some .half, direction := some (if l then .read else .write) }
    ∧ transferFormat (.wordTransfer c i p u b w l rn rd offset)
        = some { width := some (if b then .byte else .word), direction := some (if l then .read else .write) }
    ∧ transferFormat (.blockTransfer c p u sb w l rn list)
        = some { width := some .word, direction := some (if l then .read else .write) }
    ∧ (rn ∈ listedRegisters list ↔ list.getLsbD rn.num.toNat = true) ∧ (listedRegisters list).Nodup

/-- The coprocessor classes: no coprocessor is described (43_coprocessor.md, the spec's D21); under a failing condition they
complete as the advance alone (D29). -/
def Obligations.CoprocessorFamilyAdvancesOrIsRefused : Prop :=
  ∀ (c : Cond) (p u n w l : Bool) (rn rd : Reg) (opc crn crd num crm : BitVec 4) (cp opc3 : BitVec 3)
    (offset : BitVec 8) (s : State),
    (condPassed c s.cpsr = false → exec (.coprocessorDataTransfer c p u n w l rn crd num offset) s = .next { s with pc := s.pc + 4#32 })
    ∧ (condPassed c s.cpsr = true → exec (.coprocessorDataTransfer c p u n w l rn crd num offset) s = .refused .coprocessorNotDescribed)
    ∧ (condPassed c s.cpsr = false → exec (.coprocessorDataOperation c opc crn crd num cp crm) s = .next { s with pc := s.pc + 4#32 })
    ∧ (condPassed c s.cpsr = true → exec (.coprocessorDataOperation c opc crn crd num cp crm) s = .refused .coprocessorNotDescribed)
    ∧ (condPassed c s.cpsr = false → exec (.coprocessorRegisterTransfer c opc3 l crn rd num cp crm) s = .next { s with pc := s.pc + 4#32 })
    ∧ (condPassed c s.cpsr = true → exec (.coprocessorRegisterTransfer c opc3 l crn rd num cp crm) s = .refused .coprocessorNotDescribed)

/-- A word whose condition field is 0b1111 is refused whatever its other bits and whatever the state (30_encoding.md section 2,
the spec's D8). -/
def Obligations.ReservedConditionIsRefused : Prop :=
  ∀ (w : Word) (s : State), w.extractLsb' 28 4 = 0b1111#4 →
    exec (decodeWord w) s = .refused .conditionReserved
    ∧ ∀ bits : BitVec 28, exec (.conditionReserved bits) s = .refused .conditionReserved

/-- Register selection across modes (10_state.md section 1): a write to number r in mode m is read back through exactly the
numbers and modes that name the same physical register; R15 is the program counter, which reads 8 further on (the spec's
D2). -/
def Obligations.RegisterWritesReachOneRegister : Prop :=
  ∀ (s : State) (m m' : Mode) (r r' : Reg) (v : Word),
    (r ≠ .r15 → r' ≠ .r15 →
      (s.writeReg m r v).readReg m' r' = if bank m r = bank m' r' then v else s.readReg m' r')
    ∧ (r ≠ .r15 → (s.writeReg m r v).readReg m' .r15 = s.readReg m' .r15)
    ∧ (s.writeReg m .r15 v).readReg m' .r15 = v + 8#32
    ∧ (r' ≠ .r15 → (s.writeReg m .r15 v).readReg m' r' = s.readReg m' r')

/-- 10_state.md R23: which numbers are shared and which are banked, mode by mode: 0 to 7 and 15 shared by all, 8 to 12 banked
in FIQ alone, 13 and 14 banked in every mode but User and System, which share one column. -/
def Obligations.BanksOfTheModes : Prop :=
  ∀ (m m' : Mode) (r : Reg),
    (r ∈ [Reg.r0, .r1, .r2, .r3, .r4, .r5, .r6, .r7, .r15] → bank m r = bank m' r)
    ∧ (r ∈ [Reg.r8, .r9, .r10, .r11, .r12] → (bank m r = bank m' r ↔ (m = .fiq ↔ m' = .fiq)))
    ∧ (r ∈ [Reg.r13, .r14] → (bank m r = bank m' r ↔ m = m' ∨ (m ∈ [Mode.user, .system] ∧ m' ∈ [Mode.user, .system])))
    ∧ (∀ r', bank m r = bank m' r' → r = r')
    ∧ (m.saved = m'.saved ↔ m = m' ∨ (m ∈ [Mode.user, .system] ∧ m' ∈ [Mode.user, .system]))
    ∧ (m.saved = none ↔ m ∈ [Mode.user, .system])

/-- The entry sequence of 60_exceptions.md section 3 for every exception but Reset, from ARM state (vector, masks and link
values are the spec's D4, D5 and D26). -/
def Obligations.ExceptionEntryTransition : Prop :=
  ∀ (s : State) (e : Exception), e ≠ .reset → s.thumb = false →
    let t := s.takeException e
    t.phys e.mode.mode.r14 = s.pc + (if e = .dataAbort then 8#32 else 4#32)
    ∧ (∀ p, p ≠ e.mode.mode.r14 → t.phys p = s.phys p)
    ∧ t.spsr e.mode = s.cpsr ∧ (∀ x, x ≠ e.mode → t.spsr x = s.spsr x)
    ∧ t.mode = some e.mode.mode ∧ t.thumb = false ∧ Psr.i t.cpsr = true
    ∧ Psr.f t.cpsr = (if e = .fiq then true else Psr.f s.cpsr)
    ∧ t.cpsr.extractLsb' 8 24 = s.cpsr.extractLsb' 8 24
    ∧ t.pc = e.vector ∧ t.mem = s.mem ∧ t.inputs = s.inputs ∧ t.upcoming = s.upcoming ∧ t.draws = s.draws

/-- The table of 60_exceptions.md R240 and 20_memory.md section 5: the mode, its code in CPSR (10_state.md section 3) and the
vector address of each exception, Reset among them, from every state: the entry operation itself, which `step` applies in
legal-mode ARM states only (StatesWithoutAStep; assumption logs 9, 10). -/
def Obligations.ExceptionsEnterTheirModeAndVector : Prop :=
  ∀ s : State,
    ((s.takeException .reset).mode = some .supervisor ∧ Psr.m (s.takeException .reset).cpsr = 0b10011#5
        ∧ (s.takeException .reset).pc = 0x00000000#32)
    ∧ ((s.takeException .undefined).mode = some .undefined ∧ Psr.m (s.takeException .undefined).cpsr = 0b11011#5
        ∧ (s.takeException .undefined).pc = 0x00000004#32)
    ∧ ((s.takeException .softwareInterrupt).mode = some .supervisor
        ∧ Psr.m (s.takeException .softwareInterrupt).cpsr = 0b10011#5
        ∧ (s.takeException .softwareInterrupt).pc = 0x00000008#32)
    ∧ ((s.takeException .prefetchAbort).mode = some .abort ∧ Psr.m (s.takeException .prefetchAbort).cpsr = 0b10111#5
        ∧ (s.takeException .prefetchAbort).pc = 0x0000000C#32)
    ∧ ((s.takeException .dataAbort).mode = some .abort ∧ Psr.m (s.takeException .dataAbort).cpsr = 0b10111#5
        ∧ (s.takeException .dataAbort).pc = 0x00000010#32)
    ∧ ((s.takeException .irq).mode = some .irq ∧ Psr.m (s.takeException .irq).cpsr = 0b10010#5
        ∧ (s.takeException .irq).pc = 0x00000018#32)
    ∧ ((s.takeException .fiq).mode = some .fiq ∧ Psr.m (s.takeException .fiq).cpsr = 0b10001#5
        ∧ (s.takeException .fiq).pc = 0x0000001C#32)
    ∧ ∀ e : Exception, (s.takeException e).pc ≠ 0x00000014#32 ∧ (s.takeException e).thumb = false

/-- Reset at a boundary of a legal-mode ARM state (70_reset_and_hazards.md section 1; I, F and the vector are the spec's D5 and
D4), whatever the masks and the other requests; the other states have no step (StatesWithoutAStep). The registers it leaves
are free values of the model (assumption log 6): nothing is said of them. -/
def Obligations.ResetTakenInARun : Prop :=
  ∀ s : State, s.sample.inputs.reset = true → s.modeLegal = true → s.thumb = false →
    ∃ t, step s = .next t ∧ t.mode = some .supervisor ∧ t.thumb = false ∧ Psr.i t.cpsr = true ∧ Psr.f t.cpsr = true
      ∧ t.pc = 0x00000000#32 ∧ t.mem = s.mem

/-- What the spec gives the state right after reset (10_state.md section 8): mode, T, I, F, pc. The other fields are the model's
(assumption logs 2 to 5, 8) and not stated here. -/
def Obligations.StateAfterReset : Prop :=
  State.reset.mode = some .supervisor ∧ State.reset.thumb = false ∧ Psr.i State.reset.cpsr = true
    ∧ Psr.f State.reset.cpsr = true ∧ State.reset.pc = 0x00000000#32

/-- R247: an asserted, unmasked nFIQ is taken at the boundary, before the instruction at N = pc; numbers 8 to 14 then name the
FIQ bank; link N + 4. In a legal mode, in ARM state (THUMB state has no step: InterruptFromThumbState), no reset. -/
def Obligations.FastInterruptTaken : Prop :=
  ∀ s : State, s.sample.inputs.reset = false → s.modeLegal = true → s.thumb = false →
    s.sample.inputs.fiq = true → Psr.f s.cpsr = false →
    step s = .next (s.sample.takeException .fiq)
    ∧ (s.sample.takeException .fiq).mode = some .fiq
    ∧ (s.sample.takeException .fiq).phys .r14Fiq = s.pc + 4#32
    ∧ (∀ p, p ≠ .r14Fiq → (s.sample.takeException .fiq).phys p = s.phys p)
    ∧ bank .fiq .r8 = .general .r8Fiq ∧ bank .fiq .r9 = .general .r9Fiq ∧ bank .fiq .r10 = .general .r10Fiq
    ∧ bank .fiq .r11 = .general .r11Fiq ∧ bank .fiq .r12 = .general .r12Fiq ∧ bank .fiq .r13 = .general .r13Fiq
    ∧ bank .fiq .r14 = .general .r14Fiq

/-- R246: an asserted nIRQ is taken at the boundary when I = 0, link N + 4; where neither reset nor an unmasked nFIQ is
asserted (they rank above it). While I = 1 it is ignored, and it is taken at the first boundary at which I is 0. -/
def Obligations.InterruptRequestTaken : Prop :=
  ∀ s : State, s.sample.inputs.reset = false → s.modeLegal = true → s.thumb = false →
    (s.sample.inputs.fiq = false ∨ Psr.f s.cpsr = true) → s.sample.inputs.irq = true →
    (Psr.i s.cpsr = false →
      step s = .next (s.sample.takeException .irq)
      ∧ (s.sample.takeException .irq).mode = some .irq
      ∧ (s.sample.takeException .irq).phys .r14Irq = s.pc + 4#32)
    ∧ (Psr.i s.cpsr = true → s.sample.due ≠ .take .irq)

/-- 10_state.md R32: while I is set no IRQ, while F is set no FIQ is taken, in every state; the request stays as the environment
drives it; and I and F are written only by exception entry and by restoring CPSR from an SPSR. -/
def Obligations.InterruptMasksHoldRequestsPending : Prop :=
  ∀ s : State, (Psr.i s.cpsr = true → s.sample.due ≠ .take .irq) ∧ (Psr.f s.cpsr = true → s.sample.due ≠ .take .fiq)
    ∧ ∀ t, step s = .next t → t.inputs = s.sample.inputs
      ∧ ((Psr.i t.cpsr ≠ Psr.i s.cpsr ∨ Psr.f t.cpsr ≠ Psr.f s.cpsr) →
          (∃ e, t = s.sample.takeException e)
          ∨ ∃ m e, s.mode = some m ∧ m.saved = some e ∧ t.cpsr = s.spsr e)

/-- The priority order of 60_exceptions.md section 2 at a boundary of a legal-mode ARM state: if anything is raised, an exception
is due that is raised and ranks no lower than any other raised one. -/
def Obligations.HighestPriorityIsTakenFirst : Prop :=
  ∀ s : State, s.modeLegal = true → s.thumb = false → ∀ e, s.raises e = true →
    ∃ d, s.due = .take d ∧ s.raises d = true ∧ ∀ x, s.raises x = true → d.priority ≤ x.priority

/-- 60_exceptions.md section 4: after an IRQ is taken with F = 0 an asserted nFIQ is due at the next boundary; after an FIQ is
taken neither nIRQ nor nFIQ is (the masks are the spec's D5). -/
def Obligations.FiqInterruptsIrqButNotConversely : Prop :=
  ∀ s : State,
    (Psr.f s.cpsr = false → s.inputs.reset = false → s.inputs.fiq = true → (s.takeException .irq).due = .take .fiq)
    ∧ ∀ inputs : Inputs, let h := { s.takeException .fiq with inputs := inputs }
        h.due ≠ .take .irq ∧ h.due ≠ .take .fiq

/-- 60_exceptions.md section 1: in a legal-mode ARM state with no request taken, abort_req(A, fetch) makes the step take
Prefetch abort with link A + 4 (D26), whatever stands at A. -/
def Obligations.PrefetchAbortTakenInPlaceOfTheInstruction : Prop :=
  ∀ s : State, s.sample.inputs.reset = false → s.modeLegal = true → s.thumb = false →
    (s.sample.inputs.fiq = false ∨ Psr.f s.cpsr = true) → (s.sample.inputs.irq = false ∨ Psr.i s.cpsr = true) →
    s.sample.abortReq s.pc .fetch = true →
    ∃ st, step s = .next { s.sample.setPhys .r14Abt (s.pc + 4#32) with
        spsrAbt := s.cpsr, cpsr := st, pc := 0x0000000C#32 }
      ∧ st.extractLsb' 8 24 = s.cpsr.extractLsb' 8 24 ∧ Psr.m st = 0b10111#5 ∧ Psr.i st = true
      ∧ Psr.f st = Psr.f s.cpsr ∧ Psr.t st = false

/-- THUMB state: the step is refused whatever is requested (44_thumb_state.md, the spec's D10, D27; that this comes before
the request lines of 60_exceptions.md section 2 is the model's reading, assumption log 9). The entry operation itself, which
a step does not reach from there, leaves everything but the link value as from ARM state (95_test_vectors.md section 8;
masks and vector are the spec's D5, D4); of the link value nothing is said (log 9). -/
def Obligations.InterruptFromThumbState : Prop :=
  ∀ s : State, s.thumb = true →
    (s.modeLegal = true → step s = .refused .thumbState)
    ∧ ∀ e : Exception, e ≠ .reset →
      let t := s.takeException e
      t.spsr e.mode = s.cpsr ∧ (∀ x, x ≠ e.mode → t.spsr x = s.spsr x)
      ∧ t.mode = some e.mode.mode ∧ t.thumb = false ∧ Psr.i t.cpsr = true
      ∧ Psr.f t.cpsr = (if e = .fiq then true else Psr.f s.cpsr)
      ∧ t.cpsr.extractLsb' 8 24 = s.cpsr.extractLsb' 8 24 ∧ t.pc = e.vector
      ∧ (∀ p, p ≠ e.mode.mode.r14 → t.phys p = s.phys p)
      ∧ t.mem = s.mem ∧ t.inputs = s.inputs ∧ t.upcoming = s.upcoming

/-- A state whose mode code is none of the seven is refused (the spec's D15), and a THUMB state too (D10), whatever is requested,
Reset included (assumption logs 9, 10). -/
def Obligations.StatesWithoutAStep : Prop :=
  ∀ s : State,
    (s.mode = none → step s = .refused .illegalMode)
    ∧ (s.modeLegal = true → s.thumb = true → step s = .refused .thumbState)

/-- 60_exceptions.md section 2, the last line of the step: at a quiet boundary the four bytes at an aligned pc are decoded and
the instruction runs; the step adds nothing but the sampling of the inputs. -/
def Obligations.StepRunsTheDecodedInstruction : Prop :=
  ∀ (s : State) (b0 b1 b2 b3 : Byte) (i : Instr), s.sample.quiet = true → s.pc.extractLsb' 0 2 = 0#2 →
    Memory.lookup s.pc.toNat s.mem = some b0 → Memory.lookup (s.pc + 1#32).toNat s.mem = some b1 →
    Memory.lookup (s.pc + 2#32).toNat s.mem = some b2 → Memory.lookup (s.pc + 3#32).toNat s.mem = some b3 →
    decode [b0, b1, b2, b3] = .ok (i, []) → step s = exec i s.sample

/-- The model's own withFetchWord (assumption log 22): from every quiet state with an aligned pc, placing a word and stepping
runs the instruction the table word decodes to. -/
def Obligations.PlacedWordRunsNext : Prop :=
  ∀ (s : State) (w : Nat), s.sample.quiet = true → s.pc.extractLsb' 0 2 = 0#2 → w < 2 ^ 32 →
    decodeTableWord 32 w = some (decodeWord (BitVec.ofNat 32 w))
    ∧ step (s.withFetchWord 32 w) = exec (decodeWord (BitVec.ofNat 32 w)) (s.withFetchWord 32 w).sample

/-- 70_reset_and_hazards.md section 1: B to its own address, word 0xEAFFFFFE, is where test programs stop: with that HALT, which
is a parameter (D19; which other branches it counts is the model's choice, assumption log 35), a run of any length ends there
before its first step. -/
def Obligations.BranchToItselfIsAFixedPoint : Prop :=
  ∀ s : State, s.sample.quiet = true → s.pc.extractLsb' 0 2 = 0#2 →
    step (s.withFetchWord 32 0xEAFFFFFE) = .next (s.withFetchWord 32 0xEAFFFFFE).sample
    ∧ branchToItself (s.withFetchWord 32 0xEAFFFFFE) = true
    ∧ ∀ n, runUntil branchToItself n (s.withFetchWord 32 0xEAFFFFFE) = .next (s.withFetchWord 32 0xEAFFFFFE)

/-- 10_state.md R26: in ARM state bits 1:0 of pc are 0, in THUMB state bit 0 is; every step keeps it, from every state that has
it. -/
def Obligations.ProgramCounterStaysAligned : Prop :=
  ∀ s t : State, s.pcAligned = true → step s = .next t →
    (t.thumb = false → t.pc.getLsbD 0 = false ∧ t.pc.getLsbD 1 = false) ∧ (t.thumb = true → t.pc.getLsbD 0 = false)

/-- A legal mode and a pc aligned for the state it is in (10_state.md sections 2, 3), with memory in canonical form (the model's,
assumption log 2): every step keeps them. The set is wider than the initial states of 70_reset_and_hazards.md section 1, which
a step can leave for THUMB state (ResetIsWellFormed relates the two). -/
def Obligations.StepKeepsWellFormedStates : Prop :=
  ∀ s t : State, s.wf = true → step s = .next t → t.wf = true

/-- The reset state meets the invariant of StepKeepsWellFormedStates and ProgramCounterStaysAligned, and is one of the initial
states of 70_reset_and_hazards.md section 1 (legal mode, T = 0, pc a multiple of 4; an inference the spec marks as its own), as
is every state a Reset leaves; every initial state with canonical memory meets the invariant. -/
def Obligations.ResetIsWellFormed : Prop :=
  State.reset.wf = true ∧ State.reset.pcAligned = true ∧ State.reset.initial = true
    ∧ (∀ s : State, (s.takeException .reset).initial = true)
    ∧ (∀ s : State, s.initial = true ↔ s.mode.isSome = true ∧ s.cpsr.getLsbD 5 = false ∧ s.pc.toNat % 4 = 0)
    ∧ ∀ s : State, s.initial = true → Memory.wf s.mem = true → s.wf = true

/-- 42_data_transfer.md section 2 (D9) and 20_memory.md section 8: no instruction the spec gives a meaning writes memory, so no
step does: every byte reads as before. That nothing else writes memory between steps is the model's choice (assumption log
20). -/
def Obligations.MemoryIsNeverWritten : Prop :=
  ∀ s t : State, step s = .next t → t.mem = s.mem ∧ ∀ a, Memory.lookup a t.mem = Memory.lookup a s.mem

/-- Which registers a step can write (10_state.md section 1, an inference the spec marks as its own; 60_exceptions.md section
5): outside Reset, at most one general register, an R14: of the current mode by BL, of the mode entered by an exception; an
SPSR only by the entry into its mode, with the old CPSR. -/
def Obligations.RegisterFrameOfAStep : Prop :=
  ∀ s t : State, step s = .next t → s.sample.inputs.reset = false →
    (∀ p, t.phys p ≠ s.phys p → (∃ m, s.mode = some m ∧ p = m.r14 ∧ t.cpsr = s.cpsr)
        ∨ ∃ e, e ≠ .reset ∧ t = s.sample.takeException e ∧ p = e.mode.mode.r14)
    ∧ ∀ x, t.spsr x ≠ s.spsr x → ∃ e, e ≠ .reset ∧ t = s.sample.takeException e ∧ x = e.mode ∧ t.spsr x = s.cpsr

/-- The complete list of writers of CPSR (10_state.md section 3): exception entry, BX (T alone), the exit instructions; the flags
and the reserved bits only by an exit instruction or Reset. -/
def Obligations.StatusChangesOnlyByItsWriters : Prop :=
  ∀ s t : State, step s = .next t → t.cpsr ≠ s.cpsr →
    (∃ e, t = s.sample.takeException e ∧ (e ≠ .reset → t.cpsr.extractLsb' 8 24 = s.cpsr.extractLsb' 8 24))
    ∨ (∃ c rn, s.sample.due = .run (.bx c rn) ∧ ∀ k, k ≠ 5 → t.cpsr.getLsbD k = s.cpsr.getLsbD k)
    ∨ ∃ i m e, s.sample.due = .run i ∧ (exitCorrection i).isSome = true ∧ s.mode = some m ∧ m.saved = some e
        ∧ t.cpsr = s.spsr e

/-- 60_exceptions.md R263: a mode is entered by the exception that names it and left by a further exception or by the exit
instruction to whatever mode the SPSR holds; SWI is the only instruction from User to Supervisor; no exception enters User
or System. -/
def Obligations.ModesAreEnteredAsTheSpecLists : Prop :=
  ∀ s t : State, step s = .next t →
    (t.mode = s.mode ∨ (∃ e, t = s.sample.takeException e ∧ t.mode = some e.mode.mode)
      ∨ ∃ i m e, s.sample.due = .run i ∧ (exitCorrection i).isSome = true ∧ s.mode = some m ∧ m.saved = some e
          ∧ t.mode = Mode.ofCode (Psr.m (s.spsr e)))
    ∧ (s.mode = some .user → t.mode = some .supervisor →
        s.sample.due = .take .reset ∨ ∃ c ignored, s.sample.due = .run (.swi c ignored))
    ∧ (∀ e, (s.takeException e).mode ≠ some .user ∧ (s.takeException e).mode ≠ some .system)
    ∧ (∀ e, ((s.takeException e).mode = some .supervisor ↔ e = .reset ∨ e = .softwareInterrupt)
        ∧ ((s.takeException e).mode = some .abort ↔ e = .dataAbort ∨ e = .prefetchAbort)
        ∧ ((s.takeException e).mode = some .irq ↔ e = .irq) ∧ ((s.takeException e).mode = some .fiq ↔ e = .fiq)
        ∧ ((s.takeException e).mode = some .undefined ↔ e = .undefined))
    ∧ (t.mode = some .system → s.mode ≠ some .system → ∃ m e, s.mode = some m ∧ m.saved = some e ∧ Psr.m (s.spsr e) = 0b11111#5)
    ∧ (t.mode = some .user → s.mode ≠ some .user →
        ∃ i m e, s.sample.due = .run i ∧ (exitCorrection i).isSome = true ∧ s.mode = some m ∧ m.saved = some e
          ∧ Psr.m (s.spsr e) = 0b10000#5)

/-- R161: for amounts 1 to 31 zeros enter at the bottom and bit 32 - n goes out; the plain register operand is the register's
value, and has no carry-out. -/
def Obligations.LogicalShiftLeft : Prop :=
  ∀ (m : Word) (n : Nat), 1 ≤ n → n ≤ 31 →
    (∃ r, shiftLsl m n = some r ∧ (∀ k, k < 32 → r.result.getLsbD k = (decide (n ≤ k) && m.getLsbD (k - n)))
      ∧ r.carry = m.getLsbD (32 - n))
    ∧ ∀ (s : State) (mode : Mode) (rn : Reg),
        s.operand2 mode (.register rn) = some { value := s.readReg mode rn, carry := none }

/-- R162: for amounts 1 to 31 zeros enter at the top and bit n - 1 goes out; the result is never negative as a signed number. -/
def Obligations.LogicalShiftRight : Prop :=
  ∀ (m : Word) (n : Nat), 1 ≤ n → n ≤ 31 →
    ∃ r, shiftLsr m n = some r ∧ (∀ k, k < 32 → r.result.getLsbD k = (decide (k + n < 32) && m.getLsbD (k + n)))
      ∧ r.carry = m.getLsbD (n - 1) ∧ 0 ≤ r.result.toInt

/-- ASR (41_data_processing.md section 2): for amounts 1 to 31 bit 31 enters at the top and bit n - 1 goes out; on signed numbers
it is the floor of m / 2^n, which the spec marks as its own derivation. -/
def Obligations.ArithmeticShiftRight : Prop :=
  ∀ (m : Word) (n : Nat), 1 ≤ n → n ≤ 31 →
    ∃ r, shiftAsr m n = some r
      ∧ (∀ k, k < 32 → r.result.getLsbD k = if k + n < 32 then m.getLsbD (k + n) else m.getLsbD 31)
      ∧ r.carry = m.getLsbD (n - 1) ∧ r.result.toInt = m.toInt.fdiv (2 ^ n)

/-- R164: for amounts 1 to 31 the bits pushed out re-enter at the top, bit n - 1 goes out and is bit 31 of the result; ROR by n
and then by 32 - n is the identity. -/
def Obligations.RotateRight : Prop :=
  ∀ (m : Word) (n : Nat), 1 ≤ n → n ≤ 31 →
    ∃ r, shiftRor m n = some r ∧ (∀ k, k < 32 → r.result.getLsbD k = m.getLsbD ((k + n) % 32))
      ∧ r.carry = m.getLsbD (n - 1) ∧ r.carry = r.result.getLsbD 31
      ∧ ∃ r', shiftRor r.result (32 - n) = some r' ∧ r'.result = m

/-- RRX (41_data_processing.md section 2), written ROR #0, is the 33-bit rotation of C : m by one place, with C from CPSR, and has
no amount operand. That 33 of them with the carry written back each time restore m and C is the spec's own derivation, and that
C is bit 29 of CPSR its general knowledge (GK2, assumption log 28); that RRX is among the operand notations is the model's
choice (log 36). -/
def Obligations.RotateRightExtended : Prop :=
  ∀ (m : Word) (c : Bool),
    shiftValue .ror m 0 c = some (shiftRrx m c)
    ∧ (shiftRrx m c).result.getLsbD 31 = c ∧ (∀ k, k < 31 → (shiftRrx m c).result.getLsbD k = m.getLsbD (k + 1))
    ∧ (shiftRrx m c).carry = m.getLsbD 0
    ∧ (BitVec.ofBool (shiftRrx m c).carry ++ (shiftRrx m c).result : BitVec 33)
        = (BitVec.ofBool c ++ m : BitVec 33).rotateRight 1
    ∧ (fun x : Word × Bool => ((shiftRrx x.1 x.2).result, (shiftRrx x.1 x.2).carry))^[33] (m, c) = (m, c)
    ∧ ∀ (s : State) (mode : Mode) (rn : Reg),
        s.operand2 mode (.scaled rn .ror 0)
          = some { value := BitVec.ofBool (s.cpsr.getLsbD 29) ++ (s.readReg mode rn).extractLsb' 1 31,
                   carry := some ((s.readReg mode rn).getLsbD 0) }

/-- R166: the shift functions have no value outside amounts 1 to 31, but for ROR #0 = RRX, and none for an amount in a
register. -/
def Obligations.ShiftsOutsideTheirDomain : Prop :=
  ∀ (op : ShiftOp) (m : Word) (n : Nat) (c : Bool),
    (shiftValue op m n c = none ↔ ¬(1 ≤ n ∧ n ≤ 31) ∧ ¬(op = .ror ∧ n = 0))
    ∧ ∀ (s : State) (mode : Mode) (rn rs : Reg), s.operand2 mode (.registerShifted rn op rs) = none

/-- 42_data_transfer.md section 1: the effective address and the base afterwards for each listed form, with an offset that has a
value; no instruction the spec gives a meaning uses them. (That a post-indexed access always updates its base is C12; what an
update does with R15 as the base is not in the source, and the value here is the model's choice, assumption log 34; so is that
a scaled offset ROR #0, RRX, is a form at all, log 36.) Of the words, a word transfer and the two halfword transfers name these
forms by P, U, W and the offset field of 30_encoding.md section 4 (the spec's general knowledge GK6, GK10, GK11, assumption log
39; LSL #0 and W of a post-indexed form as in log 40). -/
def Obligations.AddressingModesOfTheSource : Prop :=
  ∀ (s : State) (m : Mode) (rn rm : Reg) (imm : Word) (op : ShiftOp) (n : Nat) (up : Bool) (r : Shifted) (c : Cond)
    (p u b w l sb h : Bool) (rd : Reg) (field : BitVec 12) (hi lo : BitVec 4),
    let form := fun offset => if p then AddressForm.preIndexed rn u offset w else .postIndexed rn u offset
    let x := fun q => s.readReg m q
    let sum := fun off => if up then x rn + off else x rn - off
    s.address m (.indirect rn) = some { ea := x rn, newBase := none }
    ∧ s.address m (.preIndexed rn up (.immediate imm) false) = some { ea := sum imm, newBase := none }
    ∧ s.address m (.preIndexed rn up (.immediate imm) true) = some { ea := sum imm, newBase := some (sum imm) }
    ∧ s.address m (.preIndexed rn up (.register rm) false) = some { ea := sum (x rm), newBase := none }
    ∧ s.address m (.preIndexed rn up (.register rm) true) = some { ea := sum (x rm), newBase := some (sum (x rm)) }
    ∧ s.address m (.postIndexed rn up (.register rm)) = some { ea := x rn, newBase := some (sum (x rm)) }
    ∧ (shiftValue op (x rm) n (Psr.c s.cpsr) = some r →
        s.address m (.preIndexed rn up (.scaled rm op n) false) = some { ea := sum r.result, newBase := none }
        ∧ s.address m (.postIndexed rn up (.scaled rm op n)) = some { ea := x rn, newBase := some (sum r.result) })
    ∧ transferAddress (.wordTransfer c false p u b w l rn rd field) = some (form (.immediate (field.setWidth 32)))
    ∧ (field.getLsbD 4 = false → field.extractLsb' 5 7 = 0#7 →
        transferAddress (.wordTransfer c true p u b w l rn rd field)
          = some (form (.register (Reg.ofNum (field.extractLsb' 0 4)))))
    ∧ (field.getLsbD 4 = false → field.extractLsb' 5 7 ≠ 0#7 →
        transferAddress (.wordTransfer c true p u b w l rn rd field)
          = some (form (.scaled (Reg.ofNum (field.extractLsb' 0 4)) (ShiftOp.ofField (field.extractLsb' 5 2))
              (field.extractLsb' 7 5).toNat)))
    ∧ transferAddress (.halfwordRegister c p u w l rn rd sb h rm) = some (form (.register rm))
    ∧ transferAddress (.halfwordImmediate c p u w l rn rd hi sb h lo)
        = some (form (.immediate (BitVec.ofNat 32 (16 * hi.toNat + lo.toNat))))

/-- 20_memory.md section 3 (byte order D1) on every aligned access: a read of the width written gives the value's low bytes,
which lie least significant first, and every byte outside the access reads as before. No instruction writes memory: the
operation is the spec's primitive; that a narrow read stands in a word with zeros above it is the model's choice (assumption
log 38). -/
def Obligations.MemoryReadsWhatWasWritten : Prop :=
  ∀ (s : State) (w : Width) (addr v : Word), w.aligned addr = true →
    ∃ t, s.memWrite w addr v = .ok t ∧ t.memRead w addr = .ok (v &&& BitVec.ofNat 32 (2 ^ (8 * w.bytes) - 1))
      ∧ (∀ k, k < w.bytes →
          Memory.lookup (addr + BitVec.ofNat 32 k).toNat t.mem = some (v.extractLsb' (8 * k) 8))
      ∧ (∀ a, (∀ k, k < w.bytes → a ≠ (addr + BitVec.ofNat 32 k).toNat) →
          Memory.lookup a t.mem = Memory.lookup a s.mem)
      ∧ { t with mem := s.mem } = s

/-- 20_memory.md section 2: a word lies at a multiple of 4, a halfword at a multiple of 2, a byte anywhere; an access elsewhere
is refused (the spec's D7). -/
def Obligations.MisalignedAccessIsRefused : Prop :=
  ∀ (s : State) (addr v : Word),
    (addr.toNat % 4 ≠ 0 → s.memRead .word addr = .error .misalignedAccess
        ∧ s.memWrite .word addr v = .error .misalignedAccess)
    ∧ (addr.toNat % 2 ≠ 0 → s.memRead .half addr = .error .misalignedAccess
        ∧ s.memWrite .half addr v = .error .misalignedAccess)
    ∧ s.memRead .byte addr ≠ .error .misalignedAccess
    ∧ ∃ t, s.memWrite .byte addr v = .ok t

/-- 60_exceptions.md section 1: an aligned data read answered by an Abort request takes Data abort with link A + 8, from ARM
state. No instruction the spec gives a meaning reads data. -/
def Obligations.DataAbortOnAnAbortedRead : Prop :=
  ∀ (s : State) (w : Width) (addr : Word), s.thumb = false → w.aligned addr = true → s.abortReq addr .read = true →
    ∃ t, s.dataRead w addr = .aborted t ∧ t.phys .r14Abt = s.pc + 8#32 ∧ t.spsrAbt = s.cpsr ∧ t.mode = some .abort
      ∧ t.pc = 0x00000010#32 ∧ t.mem = s.mem ∧ ∀ p, p ≠ .r14Abt → t.phys p = s.phys p
end

