-- ==== Sys2Proof/Laws/Decode.lean ====
section
/-! SUPPORT. Fields and bytes: register numbers, condition codes and the bytes of a word survive their round trips; each
mask test of the decode order (30_encoding.md R98) says what it says of the bits. -/

namespace Sys2Proof

@[simp] theorem Reg.ofNum_num (r : Reg) : Reg.ofNum r.num = r := by cases r <;> rfl
@[simp] theorem Reg.num_ofNum (n : BitVec 4) : (Reg.ofNum n).num = n := by
  have all : ∀ n : BitVec 4, (Reg.ofNum n).num = n := by decide
  exact all n

@[simp] theorem Cond.ofCode_code (c : Cond) : Cond.ofCode c.code = some c := by cases c <;> rfl

theorem Cond.code_of_ofCode {n : BitVec 4} {c : Cond} (h : Cond.ofCode n = some c) : n = c.code := by
  have all : ∀ n : BitVec 4, ∀ c ∈ Cond.ofCode n, n = c.code := by decide
  exact all n c h

/-- Only 0b1111 names no condition (R93). -/
theorem Cond.ofCode_eq_none {n : BitVec 4} : Cond.ofCode n = none ↔ n = 0b1111#4 := by
  have all : ∀ n : BitVec 4, Cond.ofCode n = none ↔ n = 0b1111#4 := by decide
  exact all n

/-- The four bytes of a word join to it (20_memory.md R69). -/
theorem joinBytes_splitBytes (order : ByteOrder) (w : Word) : joinBytes order (splitBytes order 4 w) = w := by
  have h : joinLittle (splitLittle 4 w) = w := by
    apply BitVec.eq_of_getLsbD_eq
    intro k hk
    simp only [splitLittle, joinLittle, BitVec.getLsbD_or, BitVec.getLsbD_shiftLeft, BitVec.getLsbD_setWidth,
      BitVec.getLsbD_ushiftRight, BitVec.getLsbD_zero]
    rcases Nat.lt_or_ge k 8 with h | h
    · simp [hk, h]
    · rcases Nat.lt_or_ge k 16 with h2 | h2
      · have e : 8 + (k - 8) = k := by omega
        simp [hk, show ¬ k < 8 by omega, show k - 8 < 8 by omega, show k - 8 < 32 by omega, e]
      · rcases Nat.lt_or_ge k 24 with h3 | h3
        · have e : 8 + (8 + (k - 8 - 8)) = k := by omega
          simp [hk, show ¬ k < 8 by omega, show ¬ k - 8 < 8 by omega, show k - 8 - 8 < 8 by omega, show k - 8 < 32 by omega,
            show k - 8 - 8 < 32 by omega, e]
        · have e : 8 + (8 + (8 + (k - 8 - 8 - 8))) = k := by omega
          simp [hk, show ¬ k < 8 by omega, show ¬ k - 8 < 8 by omega, show ¬ k - 8 - 8 < 8 by omega,
            show k - 8 - 8 - 8 < 8 by omega, show k - 8 < 32 by omega, show k - 8 - 8 < 32 by omega,
            show k - 8 - 8 - 8 < 32 by omega, e]
  cases order
  · exact h
  · simp [joinBytes, splitBytes, h]

@[simp] theorem splitLittle_length (n : Nat) (w : Word) : (splitLittle n w).length = n := by
  induction n generalizing w with
  | zero => rfl
  | succ n ih => simp [splitLittle, ih]

/-- The k-th byte of the little-endian order is bits `[8k+7:8k]` (20_memory.md R69). -/
theorem splitLittle_getElem (n : Nat) (w : Word) (k : Nat) (hk : k < (splitLittle n w).length) :
    (splitLittle n w)[k] = w.extractLsb' (8 * k) 8 := by
  induction n generalizing w k with
  | zero => simp [splitLittle] at hk
  | succ n ih =>
    cases k with
    | zero =>
      simp only [splitLittle, List.getElem_cons_zero]
      apply BitVec.eq_of_getLsbD_eq
      intro j hj
      simp [hj]
    | succ k =>
      simp only [splitLittle, List.getElem_cons_succ]
      rw [ih]
      apply BitVec.eq_of_getLsbD_eq
      intro j _
      simp only [BitVec.getLsbD_extractLsb', BitVec.getLsbD_ushiftRight]
      rw [show 8 + (8 * k + j) = 8 * (k + 1) + j by omega]

/-- The decoder on the four bytes of a word is the decoder on the word. -/
theorem decode_splitBytes (w : Word) (rest : List Byte) :
    decode (splitBytes Config.byteOrder 4 w ++ rest) = .ok (decodeWord w, rest) := by
  have h : splitBytes Config.byteOrder 4 w = [w.setWidth 8, (w >>> 8).setWidth 8, (w >>> 8 >>> 8).setWidth 8,
      (w >>> 8 >>> 8 >>> 8).setWidth 8] := rfl
  have hj := joinBytes_splitBytes Config.byteOrder w
  rw [h] at hj ⊢
  simp only [List.cons_append, List.nil_append, decode, hj]

/-- Every table word decodes. -/
theorem decodeTableWord_eq (nbits w : Nat) :
    decodeTableWord nbits w = some (decodeWord (BitVec.ofNat 32 (w % 2 ^ nbits))) := by
  have h := decode_splitBytes (BitVec.ofNat 32 (w % 2 ^ nbits)) []
  rw [List.append_nil] at h
  simp [decodeTableWord, h]

/-- A mask test, bit by bit. -/
theorem maskedEq_iff {w mask value : Word} :
    maskedEq w mask value = true ↔ ∀ k, k < 32 → (w.getLsbD k && mask.getLsbD k) = value.getLsbD k := by
  simp only [maskedEq, beq_iff_eq]
  constructor
  · intro h k _
    rw [← h, BitVec.getLsbD_and]
  · intro h
    apply BitVec.eq_of_getLsbD_eq
    intro k hk
    rw [BitVec.getLsbD_and, h k hk]

end Sys2Proof
end

