-- ==== Sys2Proof/Laws/Memory.lean ====
section
/-! SUPPORT. Memory: a byte placed is read back, every other address is left alone, the canonical form is kept by every
operation, and equal memories are equal lists. -/

namespace Sys2Proof.Machine

/-! ### One byte -/

@[simp] theorem Memory.lookup_store_self (a : Nat) (b : Byte) (m : List Host.Cell) :
    Memory.lookup a (Memory.store a b m) = some b := by
  induction m with
  | nil => simp [Memory.store, Memory.lookup]
  | cons cell m ih =>
    obtain ⟨a', b'⟩ := cell
    simp only [Memory.store]
    split
    · simp [Memory.lookup]
    · split
      · simp [Memory.lookup]
      · simp [Memory.lookup, *]

theorem Memory.lookup_store_ne {a a' : Nat} (b : Byte) (m : List Host.Cell) (h : a' ≠ a) :
    Memory.lookup a' (Memory.store a b m) = Memory.lookup a' m := by
  induction m with
  | nil => simp [Memory.store, Memory.lookup, h]
  | cons cell m ih =>
    obtain ⟨x, bx⟩ := cell
    simp only [Memory.store]
    split
    · simp [Memory.lookup, h]
    · split
      · subst_vars; simp [Memory.lookup, h]
      · simp [Memory.lookup, ih]

/-! ### The bytes of an access -/

theorem add_one_add_ofNat (addr : Word) (k : Nat) :
    addr + 1#32 + BitVec.ofNat 32 k = addr + BitVec.ofNat 32 (k + 1) := by
  rw [BitVec.add_assoc, Nat.add_comm k 1, BitVec.ofNat_add]

/-- Fewer than 2^32 addresses on, an address has not come round to itself. -/
theorem ne_add_ofNat (addr : Word) {k : Nat} (h0 : 0 < k) (h : k < 2 ^ 32) : addr ≠ addr + BitVec.ofNat 32 k := by
  intro hc
  have h1 := congrArg (fun x => x - addr) hc
  have h2 : BitVec.ofNat 32 k = 0#32 := by simp at h1; rw [← h1]
  have h3 := congrArg BitVec.toNat h2
  simp at h3; omega

/-- An address outside the bytes placed reads as before. -/
theorem Memory.lookup_storeBytes_ne (bs : List Byte) (addr : Word) (m : List Host.Cell) (a : Nat)
    (h : ∀ k, k < bs.length → a ≠ (addr + BitVec.ofNat 32 k).toNat) :
    Memory.lookup a (Memory.storeBytes addr bs m) = Memory.lookup a m := by
  induction bs generalizing addr m with
  | nil => rfl
  | cons b bs ih =>
    simp only [Memory.storeBytes]
    rw [ih]
    · exact Memory.lookup_store_ne _ _ (by have := h 0 (by simp); simpa using this)
    · intro k hk
      rw [add_one_add_ofNat]
      exact h (k + 1) (by simpa using hk)

/-- Each byte placed is read back. -/
theorem Memory.lookup_storeBytes (bs : List Byte) (addr : Word) (m : List Host.Cell) (hl : bs.length ≤ 2 ^ 32)
    (k : Nat) (hk : k < bs.length) :
    Memory.lookup (addr + BitVec.ofNat 32 k).toNat (Memory.storeBytes addr bs m) = some bs[k] := by
  induction bs generalizing addr m k with
  | nil => simp at hk
  | cons b bs ih =>
    simp only [Memory.storeBytes]
    simp only [List.length_cons] at hl hk
    cases k with
    | zero =>
      rw [Memory.lookup_storeBytes_ne]
      · simp
      · intro j hj
        rw [add_one_add_ofNat, BitVec.add_zero]
        intro hc
        exact ne_add_ofNat addr (k := j + 1) (by omega) (by omega) (BitVec.eq_of_toNat_eq hc)
    | succ k =>
      rw [← add_one_add_ofNat, ih _ _ (by omega) k (by omega)]; simp

/-- Bytes that stand at rising addresses are loaded in their order. -/
theorem Memory.loadBytes_of_lookup (m : List Host.Cell) (bs : List Byte) (addr : Word)
    (h : ∀ k (hk : k < bs.length), Memory.lookup (addr + BitVec.ofNat 32 k).toNat m = some bs[k]) :
    Memory.loadBytes m addr bs.length = .ok bs := by
  induction bs generalizing addr with
  | nil => rfl
  | cons b bs ih =>
    have h0 := h 0 (by simp)
    simp only [BitVec.add_zero, List.getElem_cons_zero] at h0
    have h1 := ih (addr + 1#32) (fun k hk => by
      have := h (k + 1) (by simpa using hk)
      rw [add_one_add_ofNat]; simpa using this)
    simp only [List.length_cons, Memory.loadBytes, h0, h1]

/-- Bytes placed are loaded back. -/
theorem Memory.loadBytes_storeBytes (m : List Host.Cell) (bs : List Byte) (addr : Word) (hl : bs.length ≤ 2 ^ 32) :
    Memory.loadBytes (Memory.storeBytes addr bs m) addr bs.length = .ok bs :=
  Memory.loadBytes_of_lookup _ _ _ fun k hk => Memory.lookup_storeBytes bs addr m hl k hk

/-! ### The canonical form -/

theorem Memory.risesFrom_mono {low low' : Nat} {m : List Host.Cell} (h : low' ≤ low)
    (hm : Memory.risesFrom low m = true) : Memory.risesFrom low' m = true := by
  cases m with
  | nil => rfl
  | cons cell m =>
    obtain ⟨a, b⟩ := cell
    simp only [Memory.risesFrom, Bool.and_eq_true, decide_eq_true_eq] at hm ⊢
    exact ⟨⟨by omega, hm.1.2⟩, hm.2⟩

theorem Memory.risesFrom_store {low a : Nat} {b : Byte} {m : List Host.Cell} (hl : low ≤ a) (ha : a < 2 ^ 32)
    (hm : Memory.risesFrom low m = true) : Memory.risesFrom low (Memory.store a b m) = true := by
  induction m generalizing low with
  | nil => simp [Memory.store, Memory.risesFrom, hl]; omega
  | cons cell m ih =>
    obtain ⟨x, bx⟩ := cell
    simp only [Memory.risesFrom, Bool.and_eq_true, decide_eq_true_eq] at hm
    simp only [Memory.store]
    split
    · simp only [Memory.risesFrom, Bool.and_eq_true, decide_eq_true_eq]
      exact ⟨⟨hl, ha⟩, ⟨by omega, hm.1.2⟩, hm.2⟩
    · split
      · subst_vars
        simp only [Memory.risesFrom, Bool.and_eq_true, decide_eq_true_eq]
        exact ⟨⟨hl, ha⟩, hm.2⟩
      · simp only [Memory.risesFrom, Bool.and_eq_true, decide_eq_true_eq]
        exact ⟨hm.1, ih (by omega) hm.2⟩

/-- Placing a byte keeps the canonical form. -/
theorem Memory.wf_store {a : Nat} (b : Byte) {m : List Host.Cell} (ha : a < 2 ^ 32) (hm : Memory.wf m = true) :
    Memory.wf (Memory.store a b m) = true :=
  Memory.risesFrom_store (Nat.zero_le a) ha hm

/-- Placing bytes keeps the canonical form. -/
theorem Memory.wf_storeBytes (addr : Word) (bs : List Byte) {m : List Host.Cell} (hm : Memory.wf m = true) :
    Memory.wf (Memory.storeBytes addr bs m) = true := by
  induction bs generalizing addr m with
  | nil => exact hm
  | cons b bs ih => exact ih (addr + 1#32) (Memory.wf_store b addr.isLt hm)

/-- The memory of the reset state is canonical. -/
theorem Memory.wf_reset : Memory.wf State.reset.mem = true := rfl

/-- `memWrite` keeps the canonical form. -/
theorem State.memWrite_wf {s t : State} {w : Width} {addr v : Word} (hs : Memory.wf s.mem = true)
    (h : s.memWrite w addr v = .ok t) : Memory.wf t.mem = true := by
  unfold State.memWrite at h
  split at h
  · cases h; exact Memory.wf_storeBytes _ _ hs
  · cases h

/-- Placing a word where the next fetch reads keeps the canonical form. -/
theorem State.placeWord_wf {s : State} (nbits w : Nat) (hs : Memory.wf s.mem = true) :
    Memory.wf (s.placeWord nbits w).mem = true :=
  Memory.wf_storeBytes _ _ hs

/-! ### Equal memories are equal lists -/

theorem Memory.lookup_of_lt {low a : Nat} {m : List Host.Cell} (h : a < low) (hm : Memory.risesFrom low m = true) :
    Memory.lookup a m = none := by
  induction m generalizing low with
  | nil => rfl
  | cons cell m ih =>
    obtain ⟨x, bx⟩ := cell
    simp only [Memory.risesFrom, Bool.and_eq_true, decide_eq_true_eq] at hm
    have hx : a ≠ x := by omega
    simp only [Memory.lookup, hx, if_false]
    exact ih (low := x + 1) (by omega) hm.2

theorem Memory.ext_risesFrom {low : Nat} {m m' : List Host.Cell} (hm : Memory.risesFrom low m = true)
    (hm' : Memory.risesFrom low m' = true) (h : ∀ a, Memory.lookup a m = Memory.lookup a m') : m = m' := by
  induction m generalizing low m' with
  | nil =>
    cases m' with
    | nil => rfl
    | cons cell m' =>
      have := h cell.1
      simp [Memory.lookup] at this
  | cons cell m ih =>
    obtain ⟨a, b⟩ := cell
    simp only [Memory.risesFrom, Bool.and_eq_true, decide_eq_true_eq] at hm
    cases m' with
    | nil =>
      have := h a
      simp [Memory.lookup] at this
    | cons cell' m' =>
      obtain ⟨a', b'⟩ := cell'
      simp only [Memory.risesFrom, Bool.and_eq_true, decide_eq_true_eq] at hm'
      have haa : a = a' := by
        have h1 := h a
        have h2 := h a'
        by_cases hlt : a < a'
        · rw [show Memory.lookup a ((a', b') :: m') = none from by
            simp only [Memory.lookup, show a ≠ a' from by omega, if_false]
            exact Memory.lookup_of_lt (low := a' + 1) (by omega) hm'.2] at h1
          simp [Memory.lookup] at h1
        · by_cases hgt : a' < a
          · rw [show Memory.lookup a' ((a, b) :: m) = none from by
              simp only [Memory.lookup, show a' ≠ a from by omega, if_false]
              exact Memory.lookup_of_lt (low := a + 1) (by omega) hm.2] at h2
            simp [Memory.lookup] at h2
          · omega
      subst haa
      have hb : b = b' := by simpa [Memory.lookup] using h a
      subst hb
      congr 1
      apply ih hm.2 hm'.2
      intro x
      by_cases hx : x = a
      · subst hx
        rw [Memory.lookup_of_lt (Nat.lt_succ_self x) hm.2, Memory.lookup_of_lt (Nat.lt_succ_self x) hm'.2]
      · simpa [Memory.lookup, hx] using h x

/-- Canonical memories that read alike are one list. -/
theorem Memory.ext {m m' : List Host.Cell} (hm : Memory.wf m = true) (hm' : Memory.wf m' = true)
    (h : ∀ a, Memory.lookup a m = Memory.lookup a m') : m = m' :=
  Memory.ext_risesFrom hm hm' h

end Sys2Proof.Machine
end

