-- ==== Sys2Proof/Laws/State.lean ====
section
/-! SUPPORT. What each update of the state does to each field: the field it writes, and every other one untouched. -/

namespace Sys2Proof.Machine

/-! ### Physical registers -/

/-- The register at a place of `State.regs`: the left inverse of `PhysReg.index`. -/
def PhysReg.ofIndex (k : Nat) : PhysReg :=
  match k with
  | 0 => .r0 | 1 => .r1 | 2 => .r2 | 3 => .r3 | 4 => .r4 | 5 => .r5 | 6 => .r6 | 7 => .r7
  | 8 => .r8 | 9 => .r9 | 10 => .r10 | 11 => .r11 | 12 => .r12 | 13 => .r13 | 14 => .r14
  | 15 => .r8Fiq | 16 => .r9Fiq | 17 => .r10Fiq | 18 => .r11Fiq | 19 => .r12Fiq | 20 => .r13Fiq | 21 => .r14Fiq
  | 22 => .r13Svc | 23 => .r14Svc | 24 => .r13Abt | 25 => .r14Abt | 26 => .r13Irq | 27 => .r14Irq | 28 => .r13Und
  | _ => .r14Und

theorem PhysReg.ofIndex_index (p : PhysReg) : PhysReg.ofIndex p.index.val = p := by cases p <;> rfl

/-- Every physical register has a place of its own (10_state.md R23). -/
theorem PhysReg.index_injective {p q : PhysReg} (h : p.index.val = q.index.val) : p = q := by
  rw [← PhysReg.ofIndex_index p, ← PhysReg.ofIndex_index q, h]

@[simp] theorem State.phys_setPhys_self (s : State) (p : PhysReg) (v : Word) : (s.setPhys p v).phys p = v := by
  simp [State.phys, State.setPhys]

theorem State.phys_setPhys_ne (s : State) {p q : PhysReg} (v : Word) (h : q ≠ p) :
    (s.setPhys p v).phys q = s.phys q := by
  have hk : p.index.val ≠ q.index.val := fun hpq => h (PhysReg.index_injective hpq.symm)
  simp [State.phys, State.setPhys, Vector.getElem_set_ne, hk]

@[simp] theorem State.setPhys_pc (s : State) (p : PhysReg) (v : Word) : (s.setPhys p v).pc = s.pc := rfl
@[simp] theorem State.setPhys_cpsr (s : State) (p : PhysReg) (v : Word) : (s.setPhys p v).cpsr = s.cpsr := rfl
@[simp] theorem State.setPhys_spsrFiq (s : State) (p : PhysReg) (v : Word) : (s.setPhys p v).spsrFiq = s.spsrFiq := rfl
@[simp] theorem State.setPhys_spsrIrq (s : State) (p : PhysReg) (v : Word) : (s.setPhys p v).spsrIrq = s.spsrIrq := rfl
@[simp] theorem State.setPhys_spsrSvc (s : State) (p : PhysReg) (v : Word) : (s.setPhys p v).spsrSvc = s.spsrSvc := rfl
@[simp] theorem State.setPhys_spsrAbt (s : State) (p : PhysReg) (v : Word) : (s.setPhys p v).spsrAbt = s.spsrAbt := rfl
@[simp] theorem State.setPhys_spsrUnd (s : State) (p : PhysReg) (v : Word) : (s.setPhys p v).spsrUnd = s.spsrUnd := rfl
@[simp] theorem State.setPhys_mem (s : State) (p : PhysReg) (v : Word) : (s.setPhys p v).mem = s.mem := rfl
@[simp] theorem State.setPhys_inputs (s : State) (p : PhysReg) (v : Word) : (s.setPhys p v).inputs = s.inputs := rfl
@[simp] theorem State.setPhys_upcoming (s : State) (p : PhysReg) (v : Word) : (s.setPhys p v).upcoming = s.upcoming := rfl
@[simp] theorem State.setPhys_draws (s : State) (p : PhysReg) (v : Word) : (s.setPhys p v).draws = s.draws := rfl
@[simp] theorem State.setPhys_mode (s : State) (p : PhysReg) (v : Word) : (s.setPhys p v).mode = s.mode := rfl
@[simp] theorem State.setPhys_spsr (s : State) (p : PhysReg) (v : Word) (e : ExcMode) : (s.setPhys p v).spsr e = s.spsr e := rfl

/-! ### Saved status registers -/

@[simp] theorem State.spsr_setSpsr_self (s : State) (e : ExcMode) (v : Word) : (s.setSpsr e v).spsr e = v := by
  cases e <;> rfl

theorem State.spsr_setSpsr_ne (s : State) {e x : ExcMode} (v : Word) (h : x ≠ e) :
    (s.setSpsr e v).spsr x = s.spsr x := by
  cases e <;> cases x <;> first | rfl | exact absurd rfl h

@[simp] theorem State.setSpsr_regs (s : State) (e : ExcMode) (v : Word) : (s.setSpsr e v).regs = s.regs := by
  cases e <;> rfl
@[simp] theorem State.setSpsr_pc (s : State) (e : ExcMode) (v : Word) : (s.setSpsr e v).pc = s.pc := by
  cases e <;> rfl
@[simp] theorem State.setSpsr_cpsr (s : State) (e : ExcMode) (v : Word) : (s.setSpsr e v).cpsr = s.cpsr := by
  cases e <;> rfl
@[simp] theorem State.setSpsr_mem (s : State) (e : ExcMode) (v : Word) : (s.setSpsr e v).mem = s.mem := by
  cases e <;> rfl
@[simp] theorem State.setSpsr_inputs (s : State) (e : ExcMode) (v : Word) : (s.setSpsr e v).inputs = s.inputs := by
  cases e <;> rfl
@[simp] theorem State.setSpsr_upcoming (s : State) (e : ExcMode) (v : Word) : (s.setSpsr e v).upcoming = s.upcoming := by
  cases e <;> rfl
@[simp] theorem State.setSpsr_draws (s : State) (e : ExcMode) (v : Word) : (s.setSpsr e v).draws = s.draws := by
  cases e <;> rfl
@[simp] theorem State.setSpsr_phys (s : State) (e : ExcMode) (v : Word) (p : PhysReg) : (s.setSpsr e v).phys p = s.phys p := by
  cases e <;> rfl
@[simp] theorem State.setSpsr_mode (s : State) (e : ExcMode) (v : Word) : (s.setSpsr e v).mode = s.mode := by
  cases e <;> rfl

/-! ### Advance -/

@[simp] theorem State.advance_pc (s : State) : s.advance.pc = s.pc + 4#32 := rfl
@[simp] theorem State.advance_regs (s : State) : s.advance.regs = s.regs := rfl
@[simp] theorem State.advance_cpsr (s : State) : s.advance.cpsr = s.cpsr := rfl
@[simp] theorem State.advance_spsrFiq (s : State) : s.advance.spsrFiq = s.spsrFiq := rfl
@[simp] theorem State.advance_spsrIrq (s : State) : s.advance.spsrIrq = s.spsrIrq := rfl
@[simp] theorem State.advance_spsrSvc (s : State) : s.advance.spsrSvc = s.spsrSvc := rfl
@[simp] theorem State.advance_spsrAbt (s : State) : s.advance.spsrAbt = s.spsrAbt := rfl
@[simp] theorem State.advance_spsrUnd (s : State) : s.advance.spsrUnd = s.spsrUnd := rfl
@[simp] theorem State.advance_mem (s : State) : s.advance.mem = s.mem := rfl
@[simp] theorem State.advance_inputs (s : State) : s.advance.inputs = s.inputs := rfl
@[simp] theorem State.advance_upcoming (s : State) : s.advance.upcoming = s.upcoming := rfl
@[simp] theorem State.advance_draws (s : State) : s.advance.draws = s.draws := rfl
@[simp] theorem State.advance_phys (s : State) (p : PhysReg) : s.advance.phys p = s.phys p := rfl
@[simp] theorem State.advance_spsr (s : State) (e : ExcMode) : s.advance.spsr e = s.spsr e := rfl
@[simp] theorem State.advance_mode (s : State) : s.advance.mode = s.mode := rfl

/-! ### Sampling the inputs -/

@[simp] theorem State.sample_regs (s : State) : s.sample.regs = s.regs := by
  unfold State.sample; split <;> rfl
@[simp] theorem State.sample_pc (s : State) : s.sample.pc = s.pc := by
  unfold State.sample; split <;> rfl
@[simp] theorem State.sample_cpsr (s : State) : s.sample.cpsr = s.cpsr := by
  unfold State.sample; split <;> rfl
@[simp] theorem State.sample_spsrFiq (s : State) : s.sample.spsrFiq = s.spsrFiq := by
  unfold State.sample; split <;> rfl
@[simp] theorem State.sample_spsrIrq (s : State) : s.sample.spsrIrq = s.spsrIrq := by
  unfold State.sample; split <;> rfl
@[simp] theorem State.sample_spsrSvc (s : State) : s.sample.spsrSvc = s.spsrSvc := by
  unfold State.sample; split <;> rfl
@[simp] theorem State.sample_spsrAbt (s : State) : s.sample.spsrAbt = s.spsrAbt := by
  unfold State.sample; split <;> rfl
@[simp] theorem State.sample_spsrUnd (s : State) : s.sample.spsrUnd = s.spsrUnd := by
  unfold State.sample; split <;> rfl
@[simp] theorem State.sample_mem (s : State) : s.sample.mem = s.mem := by
  unfold State.sample; split <;> rfl
@[simp] theorem State.sample_draws (s : State) : s.sample.draws = s.draws := by
  unfold State.sample; split <;> rfl
@[simp] theorem State.sample_phys (s : State) (p : PhysReg) : s.sample.phys p = s.phys p := by
  simp [State.phys]
@[simp] theorem State.sample_spsr (s : State) (e : ExcMode) : s.sample.spsr e = s.spsr e := by
  cases e <;> simp [State.spsr]
@[simp] theorem State.sample_mode (s : State) : s.sample.mode = s.mode := by
  simp [State.mode]
@[simp] theorem State.sample_thumb (s : State) : s.sample.thumb = s.thumb := by
  simp [State.thumb]

/-- With no levels left to present, the inputs stay as they are. -/
theorem State.sample_of_upcoming_nil {s : State} (h : s.upcoming = []) : s.sample = s := by
  simp [State.sample, h]

/-! ### Entering an exception's mode (60_exceptions.md R252) -/

@[simp] theorem State.enter_pc (s : State) (e : Exception) (link : Word) : (s.enter e link).pc = e.vector := rfl
@[simp] theorem State.enter_cpsr (s : State) (e : Exception) (link : Word) :
    (s.enter e link).cpsr = e.statusAfter s.cpsr := rfl
@[simp] theorem State.enter_mem (s : State) (e : Exception) (link : Word) : (s.enter e link).mem = s.mem := by
  simp [State.enter]
@[simp] theorem State.enter_inputs (s : State) (e : Exception) (link : Word) : (s.enter e link).inputs = s.inputs := by
  simp [State.enter]
@[simp] theorem State.enter_upcoming (s : State) (e : Exception) (link : Word) : (s.enter e link).upcoming = s.upcoming := by
  simp [State.enter]
@[simp] theorem State.enter_draws (s : State) (e : Exception) (link : Word) : (s.enter e link).draws = s.draws := by
  simp [State.enter]
@[simp] theorem State.enter_link (s : State) (e : Exception) (link : Word) :
    (s.enter e link).phys e.mode.mode.r14 = link := by
  have h : (s.enter e link).phys e.mode.mode.r14 = ((s.setPhys e.mode.mode.r14 link).setSpsr e.mode s.cpsr).phys
      e.mode.mode.r14 := rfl
  simp [h]

theorem State.enter_phys_ne (s : State) (e : Exception) (link : Word) {p : PhysReg} (h : p ≠ e.mode.mode.r14) :
    (s.enter e link).phys p = s.phys p := by
  have h' : (s.enter e link).phys p = ((s.setPhys e.mode.mode.r14 link).setSpsr e.mode s.cpsr).phys p := rfl
  rw [h', State.setSpsr_phys, State.phys_setPhys_ne s link h]

@[simp] theorem State.enter_spsr (s : State) (e : Exception) (link : Word) : (s.enter e link).spsr e.mode = s.cpsr := by
  have h : ∀ x, (s.enter e link).spsr x = ((s.setPhys e.mode.mode.r14 link).setSpsr e.mode s.cpsr).spsr x := by
    intro x; cases x <;> rfl
  rw [h, State.spsr_setSpsr_self]

theorem State.enter_spsr_ne (s : State) (e : Exception) (link : Word) {x : ExcMode} (h : x ≠ e.mode) :
    (s.enter e link).spsr x = s.spsr x := by
  have h' : (s.enter e link).spsr x = ((s.setPhys e.mode.mode.r14 link).setSpsr e.mode s.cpsr).spsr x := by
    cases x <;> rfl
  rw [h', State.spsr_setSpsr_ne _ _ h, State.setPhys_spsr]

end Sys2Proof.Machine
end

