-- ==== Sys2Proof/Laws/Status.lean ====
section
/-! SUPPORT. The fields of a status word after each of its updates, the modes and their codes, and the mode, masks and
flags an exception entry leaves. -/

namespace Sys2Proof.Machine

/-! ### Modes and codes (10_state.md R34) -/

@[simp] theorem Mode.ofCode_code (m : Mode) : Mode.ofCode m.code = some m := by cases m <;> rfl

/-- A code names at most one mode. -/
theorem Mode.code_of_ofCode {c : BitVec 5} {m : Mode} (h : Mode.ofCode c = some m) : c = m.code := by
  have all : ∀ c : BitVec 5, ∀ m ∈ Mode.ofCode c, c = m.code := by decide
  exact all c m h

/-- The two modes without an SPSR (R34, R38). -/
theorem Mode.saved_eq_none {m : Mode} : m.saved = none ↔ m = .user ∨ m = .system := by cases m <;> decide

/-- The SPSR of a mode is the one an exception entering that mode writes. -/
theorem Mode.saved_eq_some {m : Mode} {e : ExcMode} : m.saved = some e ↔ m = e.mode := by
  cases m <;> cases e <;> decide

/-! ### Fields after an update -/

@[simp] theorem Psr.withT_bit5 (p : Word) (t : Bool) : (Psr.withT p t).getLsbD 5 = t := by
  simp only [Psr.withT, BitVec.getLsbD_append]
  simp

theorem Psr.withT_bit (p : Word) (t : Bool) {k : Nat} (h : k ≠ 5) : (Psr.withT p t).getLsbD k = p.getLsbD k := by
  by_cases hk : k < 32
  · simp only [Psr.withT, BitVec.getLsbD_append, BitVec.getLsbD_extractLsb', BitVec.getLsbD_ofBool]
    by_cases h5 : k < 5
    · simp [h5]
    · have h6 : 6 ≤ k := by omega
      have e1 : k - 5 ≠ 0 := by omega
      have e2 : 6 + (k - 5 - 1) = k := by omega
      have e3 : ¬ (k - 5 < 1) := by omega
      have e4 : k - 5 - 1 < 26 := by omega
      simp [h5, e2, e3, e4]
  · rw [BitVec.getLsbD_of_ge _ _ (by omega), BitVec.getLsbD_of_ge _ _ (by omega)]

theorem Psr.withT_m (p : Word) (t : Bool) : Psr.m (Psr.withT p t) = Psr.m p := by
  apply BitVec.eq_of_getLsbD_eq
  intro k hk
  simp only [Psr.m, BitVec.getLsbD_extractLsb', hk, decide_true, Bool.true_and]
  exact Psr.withT_bit p t (by omega)

@[simp] theorem Psr.withT_t (p : Word) (t : Bool) : Psr.t (Psr.withT p t) = t := Psr.withT_bit5 p t

@[simp] theorem Psr.m_withControl (p : Word) (i f t : Bool) (m : BitVec 5) : Psr.m (Psr.withControl p i f t m) = m := by
  apply BitVec.eq_of_getLsbD_eq
  intro k hk
  simp only [Psr.m, Psr.withControl, BitVec.getLsbD_extractLsb', BitVec.getLsbD_append, Nat.zero_add]
  simp [hk]

@[simp] theorem Psr.t_withControl (p : Word) (i f t : Bool) (m : BitVec 5) : Psr.t (Psr.withControl p i f t m) = t := by
  simp only [Psr.t, Psr.withControl, BitVec.getLsbD_append]
  simp

@[simp] theorem Psr.f_withControl (p : Word) (i f t : Bool) (m : BitVec 5) : Psr.f (Psr.withControl p i f t m) = f := by
  simp only [Psr.f, Psr.withControl, BitVec.getLsbD_append]
  simp

@[simp] theorem Psr.i_withControl (p : Word) (i f t : Bool) (m : BitVec 5) : Psr.i (Psr.withControl p i f t m) = i := by
  simp only [Psr.i, Psr.withControl, BitVec.getLsbD_append]
  simp

/-- N, Z, C, V and the reserved bits are kept. -/
@[simp] theorem Psr.upper_withControl (p : Word) (i f t : Bool) (m : BitVec 5) :
    (Psr.withControl p i f t m).extractLsb' 8 24 = p.extractLsb' 8 24 := by
  apply BitVec.eq_of_getLsbD_eq
  intro k hk
  have h1 : ¬ (8 + k < 5) := by omega
  have h2 : ¬ (8 + k - 5 < 1) := by omega
  have h3 : ¬ (8 + k - 5 - 1 < 1) := by omega
  have h4 : ¬ (8 + k - 5 - 1 - 1 < 1) := by omega
  have h5 : 8 + (8 + k - 5 - 1 - 1 - 1) = 8 + k := by omega
  have h6 : 8 + k - 5 - 1 - 1 - 1 < 24 := by omega
  simp only [Psr.withControl, BitVec.getLsbD_extractLsb', BitVec.getLsbD_append, h1, h2, h3, h4, h5, h6, hk,
    decide_true, Bool.true_and, if_false]

/-! ### Status after an entry (60_exceptions.md R252, R255) -/

@[simp] theorem Exception.statusAfter_m (e : Exception) (p : Word) : Psr.m (e.statusAfter p) = e.mode.mode.code := by
  simp [Exception.statusAfter]
@[simp] theorem Exception.statusAfter_t (e : Exception) (p : Word) : Psr.t (e.statusAfter p) = false := by
  simp [Exception.statusAfter]
@[simp] theorem Exception.statusAfter_i (e : Exception) (p : Word) : Psr.i (e.statusAfter p) = true := by
  simp [Exception.statusAfter]
@[simp] theorem Exception.statusAfter_f (e : Exception) (p : Word) :
    Psr.f (e.statusAfter p) = (e.masksFiq || Psr.f p) := by
  simp [Exception.statusAfter]
@[simp] theorem Exception.statusAfter_upper (e : Exception) (p : Word) :
    (e.statusAfter p).extractLsb' 8 24 = p.extractLsb' 8 24 := by
  simp [Exception.statusAfter]

end Sys2Proof.Machine
end

