-- ==== Sys2Proof/Laws/Ops.lean ====
section
/-! SUPPORT. What each shared operation can do, said once: taking an exception, returning from one, the condition, what a transfer's format
tells. -/

namespace Sys2Proof.Machine

/-! ### Addresses -/

theorem wordAligned_iff {a : Word} : wordAligned a = true ↔ a.getLsbD 0 = false ∧ a.getLsbD 1 = false := by
  have all : ∀ x : BitVec 2, (x == 0#2) = true ↔ x.getLsbD 0 = false ∧ x.getLsbD 1 = false := by decide
  rw [wordAligned, all]
  simp only [BitVec.getLsbD_extractLsb']
  simp

theorem wordAligned_iff_toNat {a : Word} : wordAligned a = true ↔ a.toNat % 4 = 0 := by
  rw [wordAligned, beq_iff_eq, ← BitVec.toNat_inj]
  simp [BitVec.extractLsb'_toNat]

theorem wordAligned_add {a b : Word} (ha : wordAligned a = true) (hb : wordAligned b = true) :
    wordAligned (a + b) = true := by
  rw [wordAligned_iff_toNat] at *
  rw [BitVec.toNat_add]
  omega

theorem wordAligned_branchOffset (rel : BitVec 24) : wordAligned (branchOffset rel) = true := by
  rw [wordAligned_iff]
  simp only [branchOffset, BitVec.getLsbD_signExtend, BitVec.getLsbD_append]
  simp

/-- A branch from an aligned address goes to an aligned address (40_control_transfer.md R130, R134). -/
theorem wordAligned_branchTarget {a : Word} (rel : BitVec 24) (ha : wordAligned a = true) :
    wordAligned (branchTarget a rel) = true :=
  wordAligned_add (wordAligned_add ha rfl) (wordAligned_branchOffset rel)

theorem thumbTarget_bit0 (v : Word) : (thumbTarget v).getLsbD 0 = false := by
  simp only [thumbTarget, BitVec.getLsbD_append]
  simp

/-- The offset of a branch is four times the sign-extended field. -/
theorem branchOffset_eq (rel : BitVec 24) : branchOffset rel = rel.signExtend 32 <<< 2 := by
  apply BitVec.eq_of_getLsbD_eq
  intro k hk
  simp only [branchOffset, BitVec.getLsbD_signExtend, BitVec.getLsbD_append, BitVec.getLsbD_shiftLeft]
  rcases Nat.lt_or_ge k 2 with h | h
  · interval_cases k <;> simp
  · rcases Nat.lt_or_ge k 26 with h2 | h2
    · simp [hk, h2, show ¬ k < 2 by omega, show k - 2 < 24 by omega, show k - 2 < 32 by omega]
    · simp only [hk, show ¬ k < 26 by omega, show ¬ k < 2 by omega, show ¬ k - 2 < 24 by omega,
        show k - 2 < 32 by omega, BitVec.msb_eq_getLsbD_last, BitVec.getLsbD_append]
      simp

theorem branchTarget_eq (a : Word) (rel : BitVec 24) :
    branchTarget a rel = a + 8#32 + (rel.signExtend 32 <<< 2) := by
  rw [branchTarget, branchOffset_eq]; rfl

/-- The THUMB-state target clears bit 0. -/
theorem thumbTarget_eq_and (v : Word) : thumbTarget v = v &&& 0xFFFFFFFE#32 := by
  apply BitVec.eq_of_getLsbD_eq
  intro k hk
  simp only [thumbTarget, BitVec.getLsbD_append, BitVec.getLsbD_and, BitVec.getLsbD_extractLsb']
  interval_cases k <;> simp

theorem Exception.vector_aligned (e : Exception) : wordAligned e.vector = true := by cases e <;> rfl

/-! ### The condition -/

theorem whenPassed_of_passed {c : Cond} {s : State} (r : Result) (h : condPassed c s.cpsr = true) :
    whenPassed c s r = r := by
  simp [whenPassed, h]

theorem whenPassed_of_failed {c : Cond} {s : State} (r : Result) (h : condPassed c s.cpsr = false) :
    whenPassed c s r = .next s.advance := by
  simp [whenPassed, h]

/-- An instruction under a condition either has its effect, the condition passing, or only advances. -/
theorem whenPassed_next {c : Cond} {s t : State} {r : Result} (h : whenPassed c s r = .next t) :
    (condPassed c s.cpsr = true ∧ r = .next t) ∨ (condPassed c s.cpsr = false ∧ t = s.advance) := by
  cases hc : condPassed c s.cpsr with
  | true => rw [whenPassed_of_passed r hc] at h; exact .inl ⟨rfl, h⟩
  | false => rw [whenPassed_of_failed r hc] at h; cases h; exact .inr ⟨rfl, rfl⟩

/-! ### Taking an exception -/

theorem State.takeException_reset (s : State) : s.takeException .reset = s.takeReset := rfl

/-- From ARM state the entry is R252 with the link value of R253. -/
theorem State.takeException_arm {s : State} {e : Exception} (he : e ≠ .reset) (ht : s.thumb = false) :
    s.takeException e = s.enter e (s.pc + e.linkOffset) := by
  cases e <;> first | exact absurd rfl he | simp [State.takeException, ht]

/-- Every entry but Reset's is R252 with some link value. -/
theorem State.takeException_enter {s : State} {e : Exception} (he : e ≠ .reset) :
    ∃ link draws, s.takeException e = { s.enter e link with draws := draws } := by
  cases ht : s.thumb with
  | false => exact ⟨s.pc + e.linkOffset, s.draws, by
      rw [State.takeException_arm he ht, ← State.enter_draws s e (s.pc + e.linkOffset)]⟩
  | true => exact ⟨Config.freeWord s.draws, s.draws + 1, by
      cases e <;> first | exact absurd rfl he | simp [State.takeException, ht]⟩

@[simp] theorem State.takeException_pc (s : State) (e : Exception) : (s.takeException e).pc = e.vector := by
  by_cases he : e = .reset
  · subst he; rfl
  · obtain ⟨link, draws, h⟩ := State.takeException_enter (s := s) he
    rw [h]; rfl

@[simp] theorem State.takeException_m (s : State) (e : Exception) :
    Psr.m (s.takeException e).cpsr = e.mode.mode.code := by
  by_cases he : e = .reset
  · subst he; exact Exception.statusAfter_m _ _
  · obtain ⟨link, draws, h⟩ := State.takeException_enter (s := s) he
    rw [h]; exact Exception.statusAfter_m _ _

@[simp] theorem State.takeException_mode (s : State) (e : Exception) :
    (s.takeException e).mode = some e.mode.mode := by
  rw [State.mode, State.takeException_m, Mode.ofCode_code]

@[simp] theorem State.takeException_thumb (s : State) (e : Exception) : (s.takeException e).thumb = false := by
  by_cases he : e = .reset
  · subst he; exact Exception.statusAfter_t _ _
  · obtain ⟨link, draws, h⟩ := State.takeException_enter (s := s) he
    rw [h]; exact Exception.statusAfter_t _ _

@[simp] theorem State.takeException_i (s : State) (e : Exception) : Psr.i (s.takeException e).cpsr = true := by
  by_cases he : e = .reset
  · subst he; exact Exception.statusAfter_i _ _
  · obtain ⟨link, draws, h⟩ := State.takeException_enter (s := s) he
    rw [h]; exact Exception.statusAfter_i _ _

theorem State.takeException_cpsr {s : State} {e : Exception} (he : e ≠ .reset) :
    (s.takeException e).cpsr = e.statusAfter s.cpsr := by
  obtain ⟨link, draws, h⟩ := State.takeException_enter (s := s) he
  rw [h]; rfl

@[simp] theorem State.takeException_mem (s : State) (e : Exception) : (s.takeException e).mem = s.mem := by
  by_cases he : e = .reset
  · subst he; rfl
  · obtain ⟨link, draws, h⟩ := State.takeException_enter (s := s) he
    rw [h]; exact State.enter_mem s e link

@[simp] theorem State.takeException_inputs (s : State) (e : Exception) : (s.takeException e).inputs = s.inputs := by
  by_cases he : e = .reset
  · subst he; rfl
  · obtain ⟨link, draws, h⟩ := State.takeException_enter (s := s) he
    rw [h]; exact State.enter_inputs s e link

@[simp] theorem State.takeException_upcoming (s : State) (e : Exception) :
    (s.takeException e).upcoming = s.upcoming := by
  by_cases he : e = .reset
  · subst he; rfl
  · obtain ⟨link, draws, h⟩ := State.takeException_enter (s := s) he
    rw [h]; exact State.enter_upcoming s e link

/-- An entry but Reset's writes no general register other than R14 of the mode entered. -/
theorem State.takeException_phys_ne {s : State} {e : Exception} {p : PhysReg} (he : e ≠ .reset)
    (hp : p ≠ e.mode.mode.r14) : (s.takeException e).phys p = s.phys p := by
  obtain ⟨link, draws, h⟩ := State.takeException_enter (s := s) he
  rw [h]; exact State.enter_phys_ne s e link hp

/-- It saves CPSR in the SPSR of the mode entered. -/
theorem State.takeException_spsr {s : State} {e : Exception} (he : e ≠ .reset) :
    (s.takeException e).spsr e.mode = s.cpsr := by
  obtain ⟨link, draws, h⟩ := State.takeException_enter (s := s) he
  have h' : ∀ x, (s.takeException e).spsr x = (s.enter e link).spsr x := by intro x; rw [h]; cases x <;> rfl
  rw [h', State.enter_spsr]

/-- It writes no other SPSR. -/
theorem State.takeException_spsr_ne {s : State} {e : Exception} {x : ExcMode} (he : e ≠ .reset) (hx : x ≠ e.mode) :
    (s.takeException e).spsr x = s.spsr x := by
  obtain ⟨link, draws, h⟩ := State.takeException_enter (s := s) he
  have h' : (s.takeException e).spsr x = (s.enter e link).spsr x := by rw [h]; cases x <;> rfl
  rw [h', State.enter_spsr_ne s e link hx]

/-! ### Returning from an exception -/

/-- A return that has a next state restores CPSR from the SPSR of the mode it runs in, which holds a legal mode code, and
goes to an address aligned for the state it enters. -/
theorem State.exceptionReturn_next {s t : State} {k : Word} (h : s.exceptionReturn k = .next t) :
    ∃ m e target, s.mode = some m ∧ m.saved = some e ∧ (Mode.ofCode (Psr.m (s.spsr e))).isSome = true
      ∧ t = { s with cpsr := s.spsr e, pc := target }
      ∧ (if Psr.t (s.spsr e) then target = thumbTarget (s.readReg m .r14 - k)
          else target = s.readReg m .r14 - k ∧ wordAligned target = true) := by
  unfold State.exceptionReturn at h
  split at h
  · cases h
  · next m hm =>
    split at h
    · cases h
    · next e he =>
      simp only at h
      split at h
      · cases h
      · next m' hm' =>
        split at h
        · next ht => cases h; exact ⟨m, e, _, hm, he, by simp [hm'], rfl, by simp [ht]⟩
        · next ht =>
          split at h
          · next ha => cases h; exact ⟨m, e, _, hm, he, by simp [hm'], rfl, by simp [ht, ha]⟩
          · cases h

/-! ### Operand fields and transfer formats -/

/-- The shift a field writes, if it writes one, has an amount below 32. -/
theorem fieldShift_lt {field : BitVec 12} {op : ShiftOp} {n : Nat} (h : fieldShift field = some (op, n)) : n < 32 := by
  unfold fieldShift at h
  split at h
  · cases h
  · cases h; exact (field.extractLsb' 7 5).isLt

@[simp] theorem indexedForm_pre (u w : Bool) (rn : Reg) (offset : Offset) :
    indexedForm true u w rn offset = .preIndexed rn u offset w := rfl

@[simp] theorem indexedForm_post (u w : Bool) (rn : Reg) (offset : Offset) :
    indexedForm false u w rn offset = .postIndexed rn u offset := rfl

/-- A register is in the list when the bit of its number is set. -/
theorem mem_listedRegisters (list : BitVec 16) (r : Reg) : r ∈ listedRegisters list ↔ list.getLsbD r.num.toNat = true := by
  have num (i : Nat) (h : i < 16) : (Reg.ofNum (BitVec.ofNat 4 i)).num.toNat = i := by
    rw [Reg.num_ofNum, BitVec.toNat_ofNat, Nat.mod_eq_of_lt h]
  simp only [listedRegisters, List.mem_map, List.mem_filter, List.mem_range]
  constructor
  · rintro ⟨i, ⟨hi, hl⟩, rfl⟩
    rwa [num i hi]
  · exact fun h => ⟨r.num.toNat, ⟨r.num.isLt, h⟩, by rw [BitVec.ofNat_toNat, BitVec.setWidth_eq, Reg.ofNum_num]⟩

end Sys2Proof.Machine
end

