-- ==== Sys2Proof/Laws/Exec.lean ====
section
/-! SUPPORT. What an instruction, and a step, that has a next state can have done: one case each, said once. -/

namespace Sys2Proof.Machine

/-- The effects an instruction with a next state can have had. -/
inductive Effect (i : Instr) (s t : State) : Prop where
  /-- Nothing but the advance: its condition failed. -/
  | passedOver (c : Cond) (hc : instrCond i = some c) (failed : condPassed c s.cpsr = false) (ht : t = s.advance)
  /-- A branch. -/
  | branched (rel : BitVec 24) (ht : t = { s with pc := branchTarget s.pc rel })
  /-- A branch with link. -/
  | linked (m : Mode) (rel : BitVec 24) (hm : s.mode = some m)
      (ht : t = { s.setPhys m.r14 (s.pc + 4#32) with pc := branchTarget s.pc rel })
  /-- BX to an address aligned for the state entered. -/
  | exchanged (c : Cond) (rn : Reg) (thumb : Bool) (target : Word) (hi : i = .bx c rn)
      (ht : t = { s with cpsr := Psr.withT s.cpsr thumb, pc := target })
      (aligned : if thumb then target.getLsbD 0 = false else wordAligned target = true)
  /-- The Software interrupt, outside FIQ mode. -/
  | called (c : Cond) (ignored : BitVec 24) (hi : i = .swi c ignored) (passed : condPassed c s.cpsr = true)
      (notFiq : s.mode ≠ some .fiq) (ht : t = s.takeException .softwareInterrupt)
  /-- The Undefined instruction exception. -/
  | trapped (c : Cond) (high : BitVec 20) (low : BitVec 4) (hi : i = .undefined c high low)
      (passed : condPassed c s.cpsr = true) (ht : t = s.takeException .undefined)
  /-- An exit instruction, in a mode with an SPSR that holds a legal mode code. -/
  | returned (k : Word) (m : Mode) (e : ExcMode) (target : Word) (hi : exitCorrection i = some k)
      (hm : s.mode = some m) (he : m.saved = some e) (legal : (Mode.ofCode (Psr.m (s.spsr e))).isSome = true)
      (ht : t = { s with cpsr := s.spsr e, pc := target })
      (aligned : if Psr.t (s.spsr e) then target.getLsbD 0 = false else wordAligned target = true)

/-! ### The invariant of the program counter -/

theorem State.pcAligned_of_thumb {s : State} (h : s.thumb = true) (ha : s.pc.getLsbD 0 = false) :
    s.pcAligned = true := by
  simp only [State.pcAligned, h, ha]; rfl

theorem State.pcAligned_of_arm {s : State} (h : s.thumb = false) (ha : wordAligned s.pc = true) :
    s.pcAligned = true := by
  simp only [State.pcAligned, h, ha]; rfl

/-! ### Shapes of meanings -/

theorem branch_effect {i : Instr} {c : Cond} {rel : BitVec 24} {s t : State} (hc : instrCond i = some c)
    (h : branch c rel s = .next t) : Effect i s t := by
  rcases whenPassed_next h with ⟨_, h⟩ | ⟨hf, ht⟩
  · cases h; exact .branched rel rfl
  · exact .passedOver c hc hf ht

theorem branchLink_effect {i : Instr} {c : Cond} {rel : BitVec 24} {s t : State} (hc : instrCond i = some c)
    (h : branchLink c rel s = .next t) : Effect i s t := by
  rcases whenPassed_next h with ⟨_, h⟩ | ⟨hf, ht⟩
  · split at h
    · cases h
    · next m hm =>
      cases h
      refine .linked m rel hm ?_
      cases m <;> rfl
  · exact .passedOver c hc hf ht

theorem refusal_effect {i : Instr} {c : Cond} {r : Refusal} {s t : State} (hc : instrCond i = some c)
    (h : whenPassed c s (.refused r) = .next t) : Effect i s t := by
  rcases whenPassed_next h with ⟨_, h⟩ | ⟨hf, ht⟩
  · cases h
  · exact .passedOver c hc hf ht

theorem return_effect {i : Instr} {c : Cond} {k : Word} {s t : State} (hc : instrCond i = some c)
    (hk : exitCorrection i = some k) (h : whenPassed c s (s.exceptionReturn k) = .next t) : Effect i s t := by
  rcases whenPassed_next h with ⟨_, h⟩ | ⟨hf, ht⟩
  · obtain ⟨m, e, target, hm, he, legal, ht, aligned⟩ := State.exceptionReturn_next h
    refine .returned k m e target hk hm he legal ht ?_
    split at aligned
    · next hT => rw [hT, aligned]; exact thumbTarget_bit0 _
    · next hT => simp only [hT]; exact aligned.2
  · exact .passedOver c hc hf ht

theorem execBx_effect {c : Cond} {rn : Reg} {s t : State} (h : execBx c rn s = .next t) : Effect (.bx c rn) s t := by
  rcases whenPassed_next h with ⟨_, h⟩ | ⟨hf, ht⟩
  · split at h
    · cases h
    · simp only at h
      split at h
      · cases h
      · split at h
        · cases h; exact .exchanged c rn true _ rfl rfl (thumbTarget_bit0 _)
        · split at h
          · next ha => cases h; exact .exchanged c rn false _ rfl rfl ha
          · cases h
  · exact .passedOver c rfl hf ht

theorem execSwi_effect {c : Cond} {x : BitVec 24} {s t : State} (h : execSwi c x s = .next t) :
    Effect (.swi c x) s t := by
  rcases whenPassed_next h with ⟨hp, h⟩ | ⟨hf, ht⟩
  · split at h
    · cases h
    · cases h
    · next m hm hnot => cases h; exact .called c x rfl hp (by rw [hnot]; intro hc; exact hm (Option.some.inj hc)) rfl
  · exact .passedOver c rfl hf ht

theorem execUndefined_effect {c : Cond} {high : BitVec 20} {low : BitVec 4} {s t : State}
    (h : execUndefined c high low s = .next t) : Effect (.undefined c high low) s t := by
  rcases whenPassed_next h with ⟨hp, h⟩ | ⟨hf, ht⟩
  · cases h; exact .trapped c high low rfl hp rfl
  · exact .passedOver c rfl hf ht

/-! ### Every instruction, every step -/

/-- An instruction that answers a next state has had one of the effects. -/
theorem exec_effect {i : Instr} {s t : State} (h : exec i s = .next t) : Effect i s t := by
  cases i with
  | bx c rn => exact execBx_effect h
  | swi c x => exact execSwi_effect h
  | undefined c high low => exact execUndefined_effect h
  | movsPcR14 c => exact return_effect (k := 0#32) rfl rfl h
  | subsPcR14By4 c => exact return_effect (k := 4#32) rfl rfl h
  | subsPcR14By8 c => exact return_effect (k := 8#32) rfl rfl h
  | b c rel => exact branch_effect rfl h
  | bl c rel => exact branchLink_effect rfl h
  | multiply => exact refusal_effect rfl h
  | longMultiply => exact refusal_effect rfl h
  | swap => exact refusal_effect rfl h
  | halfwordRegister => exact refusal_effect rfl h
  | halfwordImmediate => exact refusal_effect rfl h
  | dataProcessing => exact refusal_effect rfl h
  | wordTransfer => exact refusal_effect rfl h
  | blockTransfer => exact refusal_effect rfl h
  | coprocessorDataTransfer => exact refusal_effect rfl h
  | coprocessorDataOperation => exact refusal_effect rfl h
  | coprocessorRegisterTransfer => exact refusal_effect rfl h
  | beq => exact branch_effect rfl h
  | bleq => exact branchLink_effect rfl h
  | bne => exact branch_effect rfl h
  | blne => exact branchLink_effect rfl h
  | bcs => exact branch_effect rfl h
  | blcs => exact branchLink_effect rfl h
  | bcc => exact branch_effect rfl h
  | blcc => exact branchLink_effect rfl h
  | bmi => exact branch_effect rfl h
  | blmi => exact branchLink_effect rfl h
  | bpl => exact branch_effect rfl h
  | blpl => exact branchLink_effect rfl h
  | bvs => exact branch_effect rfl h
  | blvs => exact branchLink_effect rfl h
  | bvc => exact branch_effect rfl h
  | blvc => exact branchLink_effect rfl h
  | bhi => exact branch_effect rfl h
  | blhi => exact branchLink_effect rfl h
  | bls => exact branch_effect rfl h
  | blls => exact branchLink_effect rfl h
  | bge => exact branch_effect rfl h
  | blge => exact branchLink_effect rfl h
  | blt => exact branch_effect rfl h
  | bllt => exact branchLink_effect rfl h
  | bgt => exact branch_effect rfl h
  | blgt => exact branchLink_effect rfl h
  | ble => exact branch_effect rfl h
  | blle => exact branchLink_effect rfl h
  | bal => exact branch_effect rfl h
  | blal => exact branchLink_effect rfl h
  | conditionReserved => cases h

/-- A step that has a next state took the exception due, or ran the instruction due with one of its effects. -/
theorem step_effect {s t : State} (h : step s = .next t) :
    (∃ e, s.sample.due = .take e ∧ t = s.sample.takeException e)
      ∨ ∃ i, s.sample.due = .run i ∧ Effect i s.sample t := by
  unfold step at h
  split at h
  · next e he => cases h; exact .inl ⟨e, he, rfl⟩
  · next i hi => exact .inr ⟨i, hi, exec_effect h⟩
  · cases h

/-! ### What is due -/

/-- When an exception is due it is raised, in an ARM state of a legal mode. -/
theorem State.due_take {s : State} {e : Exception} (h : s.due = .take e) :
    s.raises e = true ∧ s.modeLegal = true ∧ s.thumb = false := by
  unfold State.due at h
  split at h
  · cases h
  · next m hm =>
    split at h
    · cases h
    · next ht =>
      have admitted : s.modeLegal = true ∧ s.thumb = false := ⟨by simp [State.modeLegal, hm], by simpa using ht⟩
      split at h
      · next hr => cases h; exact ⟨hr, admitted⟩
      · split at h
        · next hf => cases h; exact ⟨hf, admitted⟩
        · split at h
          · next hi => cases h; exact ⟨hi, admitted⟩
          · split at h
            · next ha => cases h; exact ⟨ha, admitted⟩
            · split at h <;> cases h

/-- When an instruction runs, the boundary was quiet and the instruction is the one at pc. -/
theorem State.due_run {s : State} {i : Instr} (h : s.due = .run i) :
    s.quiet = true ∧ ∃ w, s.fetchWord = .ok w ∧ i = decodeWord w := by
  unfold State.due at h
  split at h
  · cases h
  · next m hm =>
    split at h
    · cases h
    · next ht =>
      split at h
      · cases h
      · next hr =>
        split at h
        · cases h
        · next hf =>
          split at h
          · cases h
          · next hi =>
            split at h
            · cases h
            · next ha =>
              split at h
              · cases h
              · next w hw =>
                cases h
                refine ⟨?_, w, hw, rfl⟩
                simp only [Bool.not_eq_true] at hr hf hi ht ha
                simp [State.quiet, State.modeLegal, hr, hm, hf, hi, ht, ha]

/-- An illegal mode code leaves nothing due but its refusal (R35). -/
theorem State.due_of_illegalMode {s : State} (h : s.mode = none) : s.due = .stop .illegalMode := by simp only [State.due, h]

/-- THUMB state leaves nothing due but its refusal (R235). -/
theorem State.due_of_thumb {s : State} (hm : s.modeLegal = true) (ht : s.thumb = true) : s.due = .stop .thumbState := by
  obtain ⟨m, hm⟩ := Option.isSome_iff_exists.mp hm
  simp only [State.due, hm, ht, if_true]

/-- At a quiet boundary what is due is the instruction at pc, or the stop its fetch ends in. -/
theorem State.due_of_quiet {s : State} (h : s.quiet = true) :
    s.due = match s.fetchWord with
      | .error why => .stop why
      | .ok w => .run (decodeWord w) := by
  simp only [State.quiet, State.modeLegal, Bool.and_eq_true, Bool.not_eq_true'] at h
  obtain ⟨⟨⟨⟨⟨hr, hm⟩, hf⟩, hi⟩, ht⟩, ha⟩ := h
  obtain ⟨m, hm⟩ := Option.isSome_iff_exists.mp hm
  simp only [State.due, hr, hm, hf, hi, ht, ha]
  cases s.fetchWord <;> simp

end Sys2Proof.Machine
end

