-- ==== Sys2Proof/Laws/PerInstr.lean ====
section
/-! SUPPORT. Statements made instruction by instruction: the condition field of every word. -/

namespace Sys2Proof.Laws.ConditionField

/-- Bits 31:28 of the word of an instruction are the number of its condition, 0b1111 where it has none
(30_encoding.md R91 to R93). -/
def Statement (i : Instr) : Prop :=
  (encode i).extractLsb' 28 4 =
    match Machine.instrCond i with
    | some c => c.code
    | none => 0b1111#4

/-- A field that lies above the lower part of a joined word is a field of the upper part. -/
theorem extract_upper {n m : Nat} (a : BitVec n) (b : BitVec m) (lo len : Nat) (h : m ≤ lo) :
    (a ++ b).extractLsb' lo len = a.extractLsb' (lo - m) len := by
  apply BitVec.eq_of_getLsbD_eq
  intro k hk
  have h1 : ¬ lo + k < m := by omega
  have h2 : lo + k - m = lo - m + k := by omega
  simp only [BitVec.getLsbD_extractLsb', BitVec.getLsbD_append, h1, h2, if_false]

/-- The condition field of an F11 word. -/
theorem encodeBranch_top (c : Cond) (l : Bool) (rel : BitVec 24) :
    (encodeBranch c l rel).extractLsb' 28 4 = c.code := by
  unfold encodeBranch
  repeat rw [extract_upper _ _ _ _ (by decide)]
  exact BitVec.extractLsb'_eq_self

/-- The statement holds of every instruction. -/
theorem every (i : Instr) : Statement i := by
  cases i <;> simp only [Statement, Machine.instrCond, encode, encodeBranch_top] <;>
    (repeat rw [extract_upper _ _ _ _ (by decide)]) <;> exact BitVec.extractLsb'_eq_self

theorem bx (cond : Cond) (rn : Reg) : Statement (.bx cond rn) := every _
theorem multiply (cond : Cond) (a s : Bool) (rd rn rs rm : Reg) : Statement (.multiply cond a s rd rn rs rm) := every _
theorem longMultiply (cond : Cond) (u a s : Bool) (rdHi rdLo rs rm : Reg) :
    Statement (.longMultiply cond u a s rdHi rdLo rs rm) := every _
theorem swap (cond : Cond) (b : Bool) (rn rd rm : Reg) : Statement (.swap cond b rn rd rm) := every _
theorem halfwordRegister (cond : Cond) (p u w l : Bool) (rn rd : Reg) (s h : Bool) (rm : Reg) :
    Statement (.halfwordRegister cond p u w l rn rd s h rm) := every _
theorem halfwordImmediate (cond : Cond) (p u w l : Bool) (rn rd : Reg) (offsetHi : BitVec 4) (s h : Bool) (offsetLo : BitVec 4) :
    Statement (.halfwordImmediate cond p u w l rn rd offsetHi s h offsetLo) := every _
theorem movsPcR14 (cond : Cond) : Statement (.movsPcR14 cond) := every _
theorem subsPcR14By4 (cond : Cond) : Statement (.subsPcR14By4 cond) := every _
theorem subsPcR14By8 (cond : Cond) : Statement (.subsPcR14By8 cond) := every _
theorem dataProcessing (cond : Cond) (i : Bool) (opcode : BitVec 4) (s : Bool) (rn rd : Reg) (operand2 : BitVec 12) :
    Statement (.dataProcessing cond i opcode s rn rd operand2) := every _
theorem undefined (cond : Cond) (high : BitVec 20) (low : BitVec 4) : Statement (.undefined cond high low) := every _
theorem wordTransfer (cond : Cond) (i p u b w l : Bool) (rn rd : Reg) (offset : BitVec 12) :
    Statement (.wordTransfer cond i p u b w l rn rd offset) := every _
theorem blockTransfer (cond : Cond) (p u s w l : Bool) (rn : Reg) (registerList : BitVec 16) :
    Statement (.blockTransfer cond p u s w l rn registerList) := every _
theorem b (cond : Cond) (rel : BitVec 24) : Statement (.b cond rel) := every _
theorem bl (cond : Cond) (rel : BitVec 24) : Statement (.bl cond rel) := every _
theorem coprocessorDataTransfer (cond : Cond) (p u n w l : Bool) (rn : Reg) (crd cpNum : BitVec 4) (offset : BitVec 8) :
    Statement (.coprocessorDataTransfer cond p u n w l rn crd cpNum offset) := every _
theorem coprocessorDataOperation (cond : Cond) (cpOpcode crn crd cpNum : BitVec 4) (cp : BitVec 3) (crm : BitVec 4) :
    Statement (.coprocessorDataOperation cond cpOpcode crn crd cpNum cp crm) := every _
theorem coprocessorRegisterTransfer (cond : Cond) (cpOpcode : BitVec 3) (l : Bool) (crn : BitVec 4) (rd : Reg) (cpNum : BitVec 4) (cp : BitVec 3) (crm : BitVec 4) :
    Statement (.coprocessorRegisterTransfer cond cpOpcode l crn rd cpNum cp crm) := every _
theorem swi (cond : Cond) (ignored : BitVec 24) : Statement (.swi cond ignored) := every _
theorem beq (rel : BitVec 24) : Statement (.beq rel) := every _
theorem bne (rel : BitVec 24) : Statement (.bne rel) := every _
theorem bcs (rel : BitVec 24) : Statement (.bcs rel) := every _
theorem bcc (rel : BitVec 24) : Statement (.bcc rel) := every _
theorem bmi (rel : BitVec 24) : Statement (.bmi rel) := every _
theorem bpl (rel : BitVec 24) : Statement (.bpl rel) := every _
theorem bvs (rel : BitVec 24) : Statement (.bvs rel) := every _
theorem bvc (rel : BitVec 24) : Statement (.bvc rel) := every _
theorem bhi (rel : BitVec 24) : Statement (.bhi rel) := every _
theorem bls (rel : BitVec 24) : Statement (.bls rel) := every _
theorem bge (rel : BitVec 24) : Statement (.bge rel) := every _
theorem blt (rel : BitVec 24) : Statement (.blt rel) := every _
theorem bgt (rel : BitVec 24) : Statement (.bgt rel) := every _
theorem ble (rel : BitVec 24) : Statement (.ble rel) := every _
theorem bal (rel : BitVec 24) : Statement (.bal rel) := every _
theorem bleq (rel : BitVec 24) : Statement (.bleq rel) := every _
theorem blne (rel : BitVec 24) : Statement (.blne rel) := every _
theorem blcs (rel : BitVec 24) : Statement (.blcs rel) := every _
theorem blcc (rel : BitVec 24) : Statement (.blcc rel) := every _
theorem blmi (rel : BitVec 24) : Statement (.blmi rel) := every _
theorem blpl (rel : BitVec 24) : Statement (.blpl rel) := every _
theorem blvs (rel : BitVec 24) : Statement (.blvs rel) := every _
theorem blvc (rel : BitVec 24) : Statement (.blvc rel) := every _
theorem blhi (rel : BitVec 24) : Statement (.blhi rel) := every _
theorem blls (rel : BitVec 24) : Statement (.blls rel) := every _
theorem blge (rel : BitVec 24) : Statement (.blge rel) := every _
theorem bllt (rel : BitVec 24) : Statement (.bllt rel) := every _
theorem blgt (rel : BitVec 24) : Statement (.blgt rel) := every _
theorem blle (rel : BitVec 24) : Statement (.blle rel) := every _
theorem blal (rel : BitVec 24) : Statement (.blal rel) := every _
theorem conditionReserved (bits : BitVec 28) : Statement (.conditionReserved bits) := every _

end Sys2Proof.Laws.ConditionField
end

