-- ==== Sys2Proof/Tests/Slice0.lean ====
section
/-! SUPPORT. The model's own tests, their expected results written out from the tables of spec/, and for every
statement with hypotheses a witness that meets them. -/

namespace Sys2Proof.Tests

open Sys2Proof.Machine

/-! ### States to step -/

/-- A state with this CPSR and pc, `link` in every R14, `saved` in every SPSR. -/
def place (cpsr pc link saved : Word) : State :=
  { State.reset with
    cpsr := cpsr, pc := pc
    regs := ((((((State.reset.setPhys .r14 link).setPhys .r14Fiq link).setPhys .r14Svc link).setPhys .r14Abt link).setPhys
      .r14Irq link).setPhys .r14Und link).regs
    spsrFiq := saved, spsrIrq := saved, spsrSvc := saved, spsrAbt := saved, spsrUnd := saved }

/-- The next state, if the outcome is one. -/
def nextOf (r : Result) : Option State :=
  match r with
  | .next t => some t
  | .fault _ => none
  | .refused _ => none

/-- What a step at `s` with the word `w` at pc leaves in pc and CPSR. -/
def pcAndStatus (s : State) (w : Nat) : Option (Word × Word) := (nextOf (step (s.withFetchWord 32 w))).map fun t => (t.pc, t.cpsr)

/-- The refusal a step at `s` with the word `w` at pc ends in. -/
def refusalOf (s : State) (w : Nat) : Option Refusal :=
  match step (s.withFetchWord 32 w) with
  | .refused r => some r
  | .next _ => none
  | .fault _ => none

/-- User mode, Z = C = 1, at 0x8000: the start state of 95_test_vectors.md section 8. -/
def user : State := place 0x60000010#32 0x00008000#32 0x00000104#32 0x60000010#32

/-- User mode with a word at 0x8000. -/
def running (w : Nat) : State := user.withFetchWord 32 w

/-! ### Well-formedness: an ill-formed term for each check -/

theorem test_wellFormed_refuses_halfwords :
    (Instr.halfwordRegister .al true true false true .r0 .r0 false false .r0).wellFormed = false
      ∧ (Instr.halfwordImmediate .al true true false true .r0 .r0 0#4 false false 0#4).wellFormed = false := by decide

theorem test_wellFormed_refuses_wordTransfer :
    (Instr.wordTransfer .al true true true false false true .r1 .r0 0x010#12).wellFormed = false
      ∧ (Instr.wordTransfer .al false true true false false true .r1 .r0 0x010#12).wellFormed = true := by decide

/-- One data-processing term for each of lines 1 to 8 of R98: BX, multiply, long multiply, swap, the two halfword
transfers, the three exit instructions. -/
theorem test_wellFormed_refuses_dataProcessing :
    (Instr.dataProcessing .al false 0b1001#4 false .r15 .r15 0xF1E#12).wellFormed = false
      ∧ (Instr.dataProcessing .al false 0b0000#4 false .r1 .r0 0x392#12).wellFormed = false
      ∧ (Instr.dataProcessing .al false 0b0110#4 false .r1 .r0 0x392#12).wellFormed = false
      ∧ (Instr.dataProcessing .al false 0b1010#4 false .r0 .r0 0x090#12).wellFormed = false
      ∧ (Instr.dataProcessing .al false 0b1100#4 true .r0 .r0 0x0D0#12).wellFormed = false
      ∧ (Instr.dataProcessing .al false 0b1110#4 true .r0 .r0 0x0B0#12).wellFormed = false
      ∧ (Instr.dataProcessing .al false 0b1101#4 true .r0 .r15 0x00E#12).wellFormed = false
      ∧ (Instr.dataProcessing .al true 0b0010#4 true .r14 .r15 0x004#12).wellFormed = false
      ∧ (Instr.dataProcessing .al true 0b0010#4 true .r14 .r15 0x008#12).wellFormed = false
      ∧ (Instr.dataProcessing .al true 0b0010#4 true .r14 .r15 0x00C#12).wellFormed = true := by decide

/-! ### Decoding: words of 95_test_vectors.md section 3 -/

theorem test_decode_control :
    decodeWord 0xE12FFF1E#32 = .bx .al .r14 ∧ decodeWord 0xE12FFF1F#32 = .bx .al .r15
      ∧ decodeWord 0xE1B0F00E#32 = .movsPcR14 .al ∧ decodeWord 0x01B0F00E#32 = .movsPcR14 .eq
      ∧ decodeWord 0xE25EF004#32 = .subsPcR14By4 .al ∧ decodeWord 0xE25EF008#32 = .subsPcR14By8 .al
      ∧ decodeWord 0xEF000011#32 = .swi .al 0x000011#24 ∧ decodeWord 0xFA000000#32 = .conditionReserved 0xA000000#28
      ∧ decodeWord 0xF0000000#32 = .conditionReserved 0#28 := by decide

theorem test_decode_dataProcessing :
    decodeWord 0xE12FFF3E#32 = .dataProcessing .al false 0b1001#4 false .r15 .r15 0xF3E#12
      ∧ decodeWord 0xE1A0F00E#32 = .dataProcessing .al false 0b1101#4 false .r0 .r15 0x00E#12
      ∧ decodeWord 0xE0810002#32 = .dataProcessing .al false 0b0100#4 false .r1 .r0 0x002#12
      ∧ decodeWord 0xE3A00001#32 = .dataProcessing .al true 0b1101#4 false .r0 .r0 0x001#12
      ∧ decodeWord 0xE1200070#32 = .dataProcessing .al false 0b1001#4 false .r0 .r0 0x070#12
      ∧ decodeWord 0x00000000#32 = .dataProcessing .eq false 0#4 false .r0 .r0 0#12
      ∧ decodeWord 0xE0010392#32 = .multiply .al false false .r1 .r0 .r3 .r2
      ∧ decodeWord 0xE0C10392#32 = .longMultiply .al true false false .r1 .r0 .r3 .r2 := by decide

theorem test_decode_transfers :
    decodeWord 0xE1400090#32 = .swap .al true .r0 .r0 .r0
      ∧ decodeWord 0xE10000B0#32 = .halfwordRegister .al true false false false .r0 .r0 false true .r0
      ∧ decodeWord 0xE1C000B0#32 = .halfwordImmediate .al true true false false .r0 .r0 0#4 false true 0#4
      ∧ decodeWord 0xE7910002#32 = .wordTransfer .al true true true false false true .r1 .r0 0x002#12
      ∧ decodeWord 0xE4810004#32 = .wordTransfer .al false false true false false false .r1 .r0 0x004#12
      ∧ decodeWord 0xE8BD8000#32 = .blockTransfer .al false true false true true .r13 0x8000#16 := by decide

theorem test_decode_rest :
    decodeWord 0xE6000010#32 = .undefined .al 0#20 0#4 ∧ decodeWord 0xE7FFFFFF#32 = .undefined .al 0xFFFFF#20 0xF#4
      ∧ decodeWord 0xED900000#32 = .coprocessorDataTransfer .al true true false false true .r0 0#4 0#4 0#8
      ∧ decodeWord 0xEE123446#32 = .coprocessorDataOperation .al 1#4 2#4 3#4 4#4 2#3 6#4
      ∧ decodeWord 0xEE010F10#32 = .coprocessorRegisterTransfer .al 0#3 false 1#4 .r0 15#4 0#3 0#4 := by decide

/-- The top bytes of the listing (S1 to S3; 30_encoding.md section 7), offset 0x000010. -/
theorem test_decode_branches :
    decodeWord 0x0A000010#32 = .beq 0x10#24 ∧ decodeWord 0x1A000010#32 = .bne 0x10#24 ∧ decodeWord 0x2A000010#32 = .bcs 0x10#24
      ∧ decodeWord 0x3A000010#32 = .bcc 0x10#24 ∧ decodeWord 0x4A000010#32 = .bmi 0x10#24
      ∧ decodeWord 0x5A000010#32 = .bpl 0x10#24 ∧ decodeWord 0x6A000010#32 = .bvs 0x10#24
      ∧ decodeWord 0x7A000010#32 = .bvc 0x10#24 ∧ decodeWord 0x8A000010#32 = .bhi 0x10#24
      ∧ decodeWord 0x9A000010#32 = .bls 0x10#24 ∧ decodeWord 0xAA000010#32 = .bge 0x10#24
      ∧ decodeWord 0xBA000010#32 = .blt 0x10#24 ∧ decodeWord 0xCA000010#32 = .bgt 0x10#24
      ∧ decodeWord 0xDA000010#32 = .ble 0x10#24 ∧ decodeWord 0xEA000010#32 = .bal 0x10#24 := by decide

theorem test_decode_links :
    decodeWord 0x0B000010#32 = .bleq 0x10#24 ∧ decodeWord 0x1B000010#32 = .blne 0x10#24
      ∧ decodeWord 0x2B000010#32 = .blcs 0x10#24 ∧ decodeWord 0x3B000010#32 = .blcc 0x10#24
      ∧ decodeWord 0x4B000010#32 = .blmi 0x10#24 ∧ decodeWord 0x5B000010#32 = .blpl 0x10#24
      ∧ decodeWord 0x6B000010#32 = .blvs 0x10#24 ∧ decodeWord 0x7B000010#32 = .blvc 0x10#24
      ∧ decodeWord 0x8B000010#32 = .blhi 0x10#24 ∧ decodeWord 0x9B000010#32 = .blls 0x10#24
      ∧ decodeWord 0xAB000010#32 = .blge 0x10#24 ∧ decodeWord 0xBB000010#32 = .bllt 0x10#24
      ∧ decodeWord 0xCB000010#32 = .blgt 0x10#24 ∧ decodeWord 0xDB000010#32 = .blle 0x10#24
      ∧ decodeWord 0xEB000010#32 = .blal 0x10#24 := by decide

/-- The general rows B and BL spell the same words (S1); the decoder answers the row of their condition. -/
theorem test_encode_general_branches :
    encode (.b .al 0x000002#24) = 0xEA000002#32 ∧ encode (.bl .al 0x00003E#24) = 0xEB00003E#32
      ∧ decodeWord 0xEA000002#32 = (Instr.b .al 0x000002#24).row := by decide

/-- Four bytes at rising addresses, bits 7:0 first (D1); fewer are no instruction. -/
theorem test_decode_bytes :
    decode [0x1E#8, 0xFF#8, 0x2F#8, 0xE1#8, 0x00#8] = .ok (.bx .al .r14, [0x00#8])
      ∧ decode [0x1E#8, 0xFF#8, 0x2F#8] = .error .truncated
      ∧ decodeTableWord 32 0xE12FFF1E = some (.bx .al .r14) := by decide

/-! ### Tables -/

/-- Corner rows of 95_test_vectors.md section 2: 0110 separates LS, 0100 separates LE, 1001 and 1000 separate GE. -/
theorem test_conditions :
    condPassed .hi 0x60000000#32 = false ∧ condPassed .ls 0x60000000#32 = true
      ∧ condPassed .le 0x40000000#32 = true ∧ condPassed .gt 0x40000000#32 = false
      ∧ condPassed .ge 0x90000000#32 = true ∧ condPassed .lt 0x80000000#32 = true
      ∧ condPassed .hi 0x20000000#32 = true ∧ condPassed .vs 0x10000000#32 = true
      ∧ condPassed .mi 0x80000000#32 = true ∧ condPassed .cs 0x20000000#32 = true := by decide

/-- Cells of the table of 10_state.md R23. -/
theorem test_banks :
    bank .user .r8 = .general .r8 ∧ bank .fiq .r8 = .general .r8Fiq ∧ bank .irq .r12 = .general .r12
      ∧ bank .system .r13 = .general .r13 ∧ bank .supervisor .r13 = .general .r13Svc
      ∧ bank .abort .r14 = .general .r14Abt ∧ bank .undefined .r14 = .general .r14Und
      ∧ bank .irq .r14 = .general .r14Irq ∧ bank .fiq .r7 = .general .r7 ∧ bank .fiq .r15 = .pc
      ∧ thumbBank .supervisor .sp = .general .r13Svc ∧ thumbBank .system .lr = .general .r14 := by decide

/-- R15 reads eight further on (D2); a general register reads what stands in it. -/
theorem test_registers :
    user.readReg .user .r15 = 0x00008008#32 ∧ user.readReg .user .r14 = 0x00000104#32
      ∧ (user.writeReg .fiq .r9 7#32).readReg .fiq .r9 = 7#32 ∧ (user.writeReg .fiq .r9 7#32).readReg .user .r9 = 0#32 := by
  decide

/-- Rows of 95_test_vectors.md section 6. -/
theorem test_shifts :
    shiftLsl 0x88000001#32 5 = some { result := 0x00000020#32, carry := true }
      ∧ shiftLsl 0xFFFFFFFF#32 31 = some { result := 0x80000000#32, carry := true }
      ∧ shiftLsr 0x80000010#32 5 = some { result := 0x04000000#32, carry := true }
      ∧ shiftLsr 0xFFFFFFFF#32 31 = some { result := 0x00000001#32, carry := true }
      ∧ shiftAsr 0x80000010#32 5 = some { result := 0xFC000000#32, carry := true }
      ∧ shiftAsr 0x40000000#32 31 = some { result := 0x00000000#32, carry := true }
      ∧ shiftRor 0x00000013#32 5 = some { result := 0x98000000#32, carry := true }
      ∧ shiftRor 0x12345678#32 4 = some { result := 0x81234567#32, carry := true }
      ∧ shiftValue .ror 0x00000003#32 0 true = some { result := 0x80000001#32, carry := true }
      ∧ shiftValue .lsl 1#32 0 false = none ∧ shiftValue .asr 1#32 32 false = none := by decide

/-- R1 = 0x1000, R2 = 3, R4 = 0xFFFFFFFC, as in 95_test_vectors.md section 7. -/
def addressed : State :=
  ((user.writeReg .user .r1 0x00001000#32).writeReg .user .r2 3#32).writeReg .user .r4 0xFFFFFFFC#32

/-- Rows of 95_test_vectors.md section 7, and the two forms the source does not list (R192, R193). -/
theorem test_addresses :
    addressed.address .user (.preIndexed .r1 false (.register .r2) true)
        = some { ea := 0x00000FFD#32, newBase := some 0x00000FFD#32 }
      ∧ addressed.address .user (.preIndexed .r1 true (.scaled .r4 .asr 1) false)
        = some { ea := 0x00000FFE#32, newBase := none }
      ∧ addressed.address .user (.postIndexed .r1 true (.scaled .r2 .lsl 2))
        = some { ea := 0x00001000#32, newBase := some 0x0000100C#32 }
      ∧ addressed.address .user (.postIndexed .r1 true (.immediate 8#32)) = none
      ∧ addressed.address .user (.preIndexed .r1 true (.scaled .r2 .lsl 2) true) = none
      ∧ addressed.operand2 .user (.scaled .r4 .asr 1) = some { value := 0xFFFFFFFE#32, carry := some false } := by
  decide

/-- The rows of 20_memory.md R68 on words of 95_test_vectors.md section 3, B set and clear; a list with its end bits (R106). -/
theorem test_transfer_formats :
    transferFormat (decodeWord 0xE5910000#32) = some { width := some .word, direction := some .read }
      ∧ transferFormat (decodeWord 0xE5C10000#32) = some { width := some .byte, direction := some .write }
      ∧ transferFormat (decodeWord 0xE1C000B0#32) = some { width := some .half, direction := some .write }
      ∧ transferFormat (decodeWord 0xE1400090#32) = some { width := some .byte, direction := none }
      ∧ transferFormat (decodeWord 0xED900000#32) = some { width := none, direction := some .read }
      ∧ transferFormat (decodeWord 0xE0010392#32) = none ∧ listedRegisters 0x8001#16 = [.r0, .r15] := by decide

/-- The layouts of 30_encoding.md R99 on words of 95_test_vectors.md section 3 and on fields written out from it: #1, R2, the
plain R14 of the exit word, R0 shifted by a register, #0xFF rotated right by 4, R2, LSL #2, R3, ROR #0. -/
theorem test_second_operands :
    secondOperand (decodeWord 0xE3A00001#32) = some (.immediate 1#32)
      ∧ secondOperand (decodeWord 0xE0810002#32) = some (.register .r2)
      ∧ secondOperand (decodeWord 0xE1B0F00E#32) = some (.register .r14)
      ∧ secondOperand (decodeWord 0xE1200070#32) = some (.registerShifted .r0 .ror .r0)
      ∧ operand2OfField true 0x2FF#12 = some (.immediate 0xF000000F#32)
      ∧ operand2OfField false 0b00010_00_0_0010#12 = some (.scaled .r2 .lsl 2)
      ∧ operand2OfField false 0b00000_11_0_0011#12 = some (.scaled .r3 .ror 0)
      ∧ operand2OfField false 0x0F0#12 = none := by decide

/-- Rows of 95_test_vectors.md section 7 as the fields of R103 and R104 write them: `[R1, #8]!`, `[R1, -R2]`, `[R1], R2, LSL #2`,
and a halfword at `[R1, #-0x8A]`. -/
theorem test_transfer_addresses :
    transferAddress (.wordTransfer .al false true true false true true .r1 .r0 0x008#12)
        = some (.preIndexed .r1 true (.immediate 8#32) true)
      ∧ transferAddress (.wordTransfer .al true true false false false true .r1 .r0 0x002#12)
        = some (.preIndexed .r1 false (.register .r2) false)
      ∧ transferAddress (.wordTransfer .al true false true false false true .r1 .r0 0b00010_00_0_0010#12)
        = some (.postIndexed .r1 true (.scaled .r2 .lsl 2))
      ∧ transferAddress (.halfwordImmediate .al true false false true .r1 .r0 0x8#4 false true 0xA#4)
        = some (.preIndexed .r1 false (.immediate 0x8A#32) false)
      ∧ transferAddress (decodeWord 0xE92D4000#32) = none := by decide

/-! ### Branches: rows of 95_test_vectors.md section 4 -/

theorem test_branch_wraps :
    pcAndStatus user 0xEA800000 = some (0xFE008008#32, 0x60000010#32)
      ∧ pcAndStatus user 0xEA7FFFFF = some (0x02008004#32, 0x60000010#32)
      ∧ pcAndStatus { user with pc := 0xFFFFFFFC#32 } 0xEA000000 = some (0x00000004#32, 0x60000010#32) := by decide

theorem test_branch_conditions :
    pcAndStatus user 0x0A000010 = some (0x00008048#32, 0x60000010#32)
      ∧ pcAndStatus { user with cpsr := 0x20000010#32 } 0x0A000010 = some (0x00008004#32, 0x20000010#32) := by decide

/-- The link wraps; under a failing condition R14 is not written. -/
theorem test_branchLink :
    ((nextOf (step ({ user with pc := 0xFFFFFFFC#32 }.withFetchWord 32 0xEB000000))).map fun t => (t.pc, t.phys .r14))
        = some (0x00000004#32, 0#32)
      ∧ ((nextOf (step (user.withFetchWord 32 0x1B000010))).map fun t => (t.pc, t.phys .r14))
        = some (0x00008004#32, 0x00000104#32) := by decide

/-- In Supervisor mode BL writes R14_svc alone. -/
theorem test_branchLink_banked :
    ((nextOf (step ({ user with cpsr := 0x00000013#32 }.withFetchWord 32 0xEB000002))).map fun t =>
      (t.phys .r14, t.phys .r14Svc)) = some (0x00000104#32, 0x00008004#32) := by decide

/-- Rows of 95_test_vectors.md section 5. -/
theorem test_bx :
    pcAndStatus (place 0x00000010#32 0x00008000#32 0x00000104#32 0#32) 0xE12FFF1E = some (0x00000104#32, 0x00000010#32)
      ∧ pcAndStatus (place 0x00000010#32 0x00008000#32 0x00000201#32 0#32) 0xE12FFF1E
        = some (0x00000200#32, 0x00000030#32)
      ∧ pcAndStatus (place 0x00000010#32 0x00008000#32 0xFFFFFFFF#32 0#32) 0xE12FFF1E
        = some (0xFFFFFFFE#32, 0x00000030#32) := by decide

theorem test_bx_refusals :
    refusalOf (place 0x00000010#32 0x00008000#32 0x00008002#32 0#32) 0xE12FFF1E = some .misalignedTarget
      ∧ refusalOf user 0xE12FFF1F = some .bxOfR15 := by decide

/-! ### Exceptions: rows of 95_test_vectors.md section 8 -/

/-- What a step leaves in an R14, the SPSR of the mode entered, CPSR and pc. -/
def entered (s : State) (w : Nat) (p : PhysReg) (e : ExcMode) : Option (Word × Word × Word × Word) :=
  (nextOf (step (s.withFetchWord 32 w))).map fun t => (t.phys p, t.spsr e, t.cpsr, t.pc)

theorem test_swi :
    entered user 0xEF000000 .r14Svc .supervisor = some (0x00008004#32, 0x60000010#32, 0x60000093#32, 0x00000008#32) := by
  decide

theorem test_swi_in_fiq : refusalOf { user with cpsr := 0x00000011#32 } 0xEF000000 = some .swiInFiqMode := by decide

theorem test_undefined :
    entered user 0xE7F000F0 .r14Und .undefined = some (0x00008004#32, 0x60000010#32, 0x6000009B#32, 0x00000004#32) := by
  decide

theorem test_prefetchAbort :
    entered { user with inputs := { Inputs.idle with aborts := [{ first := 0x8000, last := 0x8000, kind := .fetch }] } } 0
        .r14Abt .abort = some (0x00008004#32, 0x60000010#32, 0x60000097#32, 0x0000000C#32) := by decide

theorem test_irq :
    entered { user with inputs := { Inputs.idle with irq := true } } 0 .r14Irq .irq
      = some (0x00008004#32, 0x60000010#32, 0x60000092#32, 0x00000018#32) := by decide

/-- Both requests asserted: FIQ first. -/
theorem test_fiq :
    entered { user with inputs := { Inputs.idle with irq := true, fiq := true } } 0 .r14Fiq .fiq
      = some (0x00008004#32, 0x60000010#32, 0x600000D1#32, 0x0000001C#32) := by decide

theorem test_dataAbort :
    let t := user.takeException .dataAbort
    (t.phys .r14Abt, t.spsrAbt, t.cpsr, t.pc) = (0x00008008#32, 0x60000010#32, 0x60000097#32, 0x00000010#32) := by decide

/-- With F = 1, I = 0: nFIQ ignored, nIRQ taken; with both set, the instruction runs. -/
theorem test_masks :
    ({ user with cpsr := 0x00000050#32, inputs := { Inputs.idle with irq := true, fiq := true } }).due = .take .irq
      ∧ pcAndStatus { user with cpsr := 0x000000D0#32, inputs := { Inputs.idle with irq := true, fiq := true } } 0xEA000000
        = some (0x00008008#32, 0x000000D0#32) := by decide

/-- The levels scheduled for this boundary are sampled before the fetch (P4). -/
theorem test_schedule :
    ((nextOf (step { user with upcoming := [{ Inputs.idle with irq := true }, Inputs.idle] })).map fun t =>
      (t.pc, t.inputs.irq, t.upcoming)) = some (0x00000018#32, true, [Inputs.idle]) := by decide

/-- Reset in a run (P8): Supervisor mode, low byte D3, pc 0; the rest is not known. -/
theorem test_reset :
    ({ user with inputs := { Inputs.idle with reset := true } }).due = .take .reset
      ∧ (user.takeException .reset).pc = 0#32 := by decide

theorem test_reset_state : State.reset.cpsr.extractLsb' 0 8 = 0xD3#8 ∧ State.reset.pc = 0#32 ∧ State.reset.mem = [] := by
  decide

/-! ### Return: 95_test_vectors.md section 8 -/

theorem test_movsPcR14 :
    pcAndStatus (place 0x6000009B#32 0x00000300#32 0x00008004#32 0x60000010#32) 0xE1B0F00E
        = some (0x00008004#32, 0x60000010#32)
      ∧ pcAndStatus (place 0x00000093#32 0x00000300#32 0x00008005#32 0x00000030#32) 0xE1B0F00E
        = some (0x00008004#32, 0x00000030#32) := by decide

theorem test_movsPcR14_refusals :
    refusalOf user 0xE1B0F00E = some .noSavedStatus
      ∧ refusalOf (place 0x00000093#32 0x00000300#32 0x00008004#32 0#32) 0xE1B0F00E = some .illegalSavedMode
      ∧ refusalOf (place 0x00000093#32 0x00000300#32 0x00008006#32 0x00000010#32) 0xE1B0F00E = some .misalignedTarget := by
  decide

theorem test_subsPcR14By4 :
    pcAndStatus (place 0x60000097#32 0x00000400#32 0x00008004#32 0x60000010#32) 0xE25EF004
      = some (0x00008000#32, 0x60000010#32) := by decide

theorem test_subsPcR14By8 :
    pcAndStatus (place 0x60000097#32 0x00000400#32 0x00008008#32 0x60000010#32) 0xE25EF008
      = some (0x00008000#32, 0x60000010#32) := by decide

/-! ### Where a run ends: R8, R295, D19 -/

/-- A branch over a word to one that branches to itself: the run ends there; with a HALT that holds at once it does not begin;
with one that never holds it goes round. -/
theorem test_halt :
    let s := { running 0xEA000000 with mem := (running 0xEA000000).mem ++ [(0x8008, 0xFE#8), (0x8009, 0xFF#8), (0x800A, 0xFF#8), (0x800B, 0xEA#8)] }
    ((nextOf (runUntil branchToItself 9 s)).map State.pc, (nextOf (runUntil (fun _ => true) 9 s)).map State.pc,
        (nextOf (runUntil (fun _ => false) 3 s)).map State.pc)
      = (some 0x8008#32, some 0x8000#32, some 0x8008#32) := by decide

/-! ### Refusals: P10 -/

theorem test_refused_classes :
    refusalOf user 0xE3A00001 = some .dataProcessingOperationNotGiven
      ∧ refusalOf user 0xE5910000 = some .wordTransferOperationNotGiven
      ∧ refusalOf user 0xFA000000 = some .conditionReserved
      ∧ pcAndStatus user 0x13A00001 = some (0x00008004#32, 0x60000010#32) := by decide

theorem test_refused_states :
    refusalOf { user with cpsr := 0x00000030#32 } 0xEA000000 = some .thumbState
      ∧ refusalOf { user with cpsr := 0x00000000#32 } 0xEA000000 = some .illegalMode := by decide

/-- 44_thumb_state.md R235 on the BX row of 95_test_vectors.md section 5 with target 0x201: the step that sets T completes,
the next one is refused, whatever is asserted. -/
theorem test_thumb_has_no_step :
    let s := (place 0x00000010#32 0x00008000#32 0x00000201#32 0#32).withFetchWord 32 0xE12FFF1E
    let requests := { Inputs.idle with reset := true, irq := true, fiq := true }
    (nextOf (step s)).map (fun t => (t.thumb, step t, step { t with inputs := requests }))
      = some (true, .refused .thumbState, .refused .thumbState) := rfl

/-- With nothing placed the fetch has no byte to read (assumption log 2). -/
theorem test_unplaced : step State.reset = .refused (.unplacedByte 0) := rfl

/-! ### Memory -/

/-- Little-endian (D1), at the end of the address space. -/
theorem test_memory :
    Memory.storeBytes 0xFFFFFFFE#32 (splitBytes Config.byteOrder 4 0x11223344#32) []
        = [(0, 0x22#8), (1, 0x11#8), (0xFFFFFFFE, 0x44#8), (0xFFFFFFFF, 0x33#8)]
      ∧ user.memRead .half 0x00000001#32 = .error .misalignedAccess
      ∧ user.memRead .word 0x00000003#32 = .error .misalignedAccess := by decide

/-! ### Witnesses: for every statement with hypotheses, states and operands that meet them together -/

/-- The state one step after `s`, `s` itself where there is none. -/
def after (s : State) : State := (nextOf (step s)).getD s

/-- A step that has a next state leads to `after s`. -/
theorem step_after {s : State} (h : (nextOf (step s)).isSome = true) : step s = .next (after s) := by
  unfold after
  cases hs : step s with
  | next t => simp [nextOf]
  | fault f => rw [hs] at h; cases h
  | refused r => rw [hs] at h; cases h

/-- Undefined mode, coming from User mode, with a word at 0x300. -/
def handling (saved : Word) (w : Nat) : State := (place 0x6000009B#32 0x00000300#32 0x00008004#32 saved).withFetchWord 32 w

/-- User mode with these levels presented. -/
def requested (inputs : Inputs) : State := { user with inputs := inputs }

theorem witness_DecodeOfEncodeIsTheRow :
    (Instr.b .ne 0x800000#24).wellFormed = true ∧ (Instr.swi .al 0xFFFFFF#24).wellFormed = true
      ∧ (Instr.dataProcessing .le true 0xF#4 true .r15 .r0 0xFFF#12).wellFormed = true
      ∧ (Instr.wordTransfer .al true true true false false true .r1 .r0 0xFEF#12).wellFormed = true
      ∧ (Instr.halfwordRegister .eq true true false true .r1 .r0 false true .r15).wellFormed = true := by decide

theorem witness_FailedConditionOnlyAdvances :
    instrCond (.swi .ne 0#24) = some .ne ∧ condPassed .ne user.cpsr = false
      ∧ instrCond (.blvs 0#24) = some .vs ∧ condPassed .vs user.cpsr = false := by decide

theorem witness_BranchWithLinkUnderAnyCondition :
    user.mode = some .user ∧ condPassed .eq user.cpsr = true ∧ condPassed .ne user.cpsr = false := by decide

theorem witness_ConditionalLinkRowsFollowTheFlags :
    user.mode = some .user ∧ (place 0x000000D1#32 0#32 0#32 0#32).mode = some .fiq := by decide

theorem witness_ConditionalRowsAreBAndBl :
    exec (.bl .ne 0x10#24) user = .next user.advance ∧ condPassed .ne user.cpsr = false := ⟨rfl, by decide⟩

theorem witness_BranchAndExchangeToArmState :
    user.mode = some .user ∧ Reg.r14 ≠ .r15 ∧ condPassed .al user.cpsr = true
      ∧ (user.readReg .user .r14).extractLsb' 0 2 = 0#2 := by decide

theorem witness_BranchAndExchangeToThumbState :
    (user.setPhys .r14 0xFFFFFFFF#32).mode = some .user ∧ Reg.r14 ≠ .r15
      ∧ condPassed .eq (user.setPhys .r14 0xFFFFFFFF#32).cpsr = true
      ∧ ((user.setPhys .r14 0xFFFFFFFF#32).readReg .user .r14).getLsbD 0 = true := by decide

theorem witness_BranchAndExchangeRefusals :
    (user.setPhys .r0 0x00008002#32).mode = some .user ∧ condPassed .al (user.setPhys .r0 0x00008002#32).cpsr = true
      ∧ Reg.r0 ≠ .r15 ∧ ((user.setPhys .r0 0x00008002#32).readReg .user .r0).extractLsb' 0 2 = 2#2 := by decide

theorem witness_ReturnFromSubroutineByBx :
    user.modeLegal = true ∧ user.thumb = false ∧ user.pc.extractLsb' 0 2 = 0#2 ∧ condPassed .eq user.cpsr = true
      ∧ ∃ t, exec (.bl .eq 2#24) user = .next t :=
  ⟨by decide, by decide, by decide, by decide, _, rfl⟩

theorem witness_SoftwareInterruptEntersSupervisor :
    user.mode = some .user ∧ Mode.user ≠ .fiq ∧ user.thumb = false ∧ condPassed .eq user.cpsr = true := by decide

theorem witness_SoftwareInterruptNextState :
    (place 0x80000053#32 0xFFFFFFFC#32 0#32 0#32).mode = some .supervisor ∧ Mode.supervisor ≠ .fiq
      ∧ (place 0x80000053#32 0xFFFFFFFC#32 0#32 0#32).thumb = false
      ∧ condPassed .mi (place 0x80000053#32 0xFFFFFFFC#32 0#32 0#32).cpsr = true := by decide

theorem witness_SoftwareInterruptRefusedInFiqMode :
    (place 0x000000D1#32 0#32 0#32 0#32).mode = some .fiq ∧ condPassed .al (place 0x000000D1#32 0#32 0#32 0#32).cpsr = true := by
  decide

theorem witness_UndefinedCodeTrapNextState : user.thumb = false ∧ condPassed .al user.cpsr = true := by decide

/-- Both clauses (a return to ARM state, one to THUMB state), with each of the three corrections. -/
theorem witness_ExitInstructionNextState :
    let arm := place 0x60000097#32 0x00000400#32 0x00008008#32 0x60000010#32
    let thumb := place 0x60000097#32 0x00000400#32 0x00008009#32 0x60000030#32
    (arm.mode = some .abort ∧ Mode.abort.saved = some .abort ∧ condPassed .al arm.cpsr = true
        ∧ (Mode.ofCode (Psr.m (arm.spsr .abort))).isSome = true)
      ∧ ((arm.spsr .abort).getLsbD 5 = false ∧ (arm.phys Mode.abort.r14 - 0#32).extractLsb' 0 2 = 0#2
        ∧ (arm.phys Mode.abort.r14 - 4#32).extractLsb' 0 2 = 0#2 ∧ (arm.phys Mode.abort.r14 - 8#32).extractLsb' 0 2 = 0#2)
      ∧ (thumb.mode = some .abort ∧ condPassed .al thumb.cpsr = true
        ∧ (Mode.ofCode (Psr.m (thumb.spsr .abort))).isSome = true ∧ (thumb.spsr .abort).getLsbD 5 = true) := by decide

/-- Each clause: no SPSR, an illegal code in it, a misaligned target. -/
theorem witness_ExitInstructionRefusals :
    let illegal := place 0x00000093#32 0x00000300#32 0x00008004#32 0#32
    let misaligned := place 0x00000093#32 0x00000300#32 0x00008006#32 0x00000010#32
    (user.mode = some .user ∧ condPassed .al user.cpsr = true)
      ∧ (illegal.mode = some .supervisor ∧ condPassed .al illegal.cpsr = true ∧ Mode.supervisor.saved = some .supervisor
        ∧ Mode.ofCode (Psr.m (illegal.spsr .supervisor)) = none)
      ∧ (misaligned.mode = some .supervisor ∧ condPassed .al misaligned.cpsr = true
        ∧ (Mode.ofCode (Psr.m (misaligned.spsr .supervisor))).isSome = true
        ∧ (misaligned.spsr .supervisor).getLsbD 5 = false
        ∧ (misaligned.phys Mode.supervisor.r14 - 0#32).extractLsb' 0 2 ≠ 0#2) := by decide

/-- For every exception but Reset there is one exit instruction that undoes it. -/
theorem witness_ExitUndoesExceptionEntry :
    user.wf = true ∧ user.thumb = false
      ∧ (∀ e ∈ [Exception.undefined, .softwareInterrupt],
          (e = .undefined ∨ e = .softwareInterrupt) ∧ Instr.movsPcR14 .al = .movsPcR14 .al)
      ∧ (∀ e ∈ [Exception.prefetchAbort, .irq, .fiq],
          (e = .prefetchAbort ∨ e = .irq ∨ e = .fiq) ∧ Instr.subsPcR14By4 .al = .subsPcR14By4 .al)
      ∧ (Exception.dataAbort = .dataAbort ∧ Instr.subsPcR14By8 .al = .subsPcR14By8 .al) := by decide

/-- Both conditions; for each layout a field: the ends of the scaled ones, the plain register, the register amount. -/
theorem witness_DataProcessingFamilyAdvancesOrIsRefused :
    (condPassed .ne user.cpsr = false ∧ condPassed .eq user.cpsr = true)
      ∧ ((0x020#12).getLsbD 4 = false ∧ (0x020#12).extractLsb' 5 7 ≠ 0#7)
      ∧ ((0xFEF#12).getLsbD 4 = false ∧ (0xFEF#12).extractLsb' 5 7 ≠ 0#7)
      ∧ ((0x00E#12).getLsbD 4 = false ∧ (0x00E#12).extractLsb' 5 7 = 0#7)
      ∧ ((0xF7F#12).getLsbD 4 = true ∧ (0xF7F#12).getLsbD 7 = false) := by decide

theorem witness_TransferFamilyAdvancesOrIsRefused :
    condPassed .mi user.cpsr = false ∧ condPassed .cs user.cpsr = true := by decide

theorem witness_CoprocessorFamilyAdvancesOrIsRefused :
    condPassed .gt user.cpsr = false ∧ condPassed .al user.cpsr = true := by decide

theorem witness_ReservedConditionIsRefused :
    (0xF0000000#32).extractLsb' 28 4 = 0b1111#4 ∧ (0xFFFFFFFF#32).extractLsb' 28 4 = 0b1111#4 := by decide

/-- Equal banks and different ones, at the edges of the banked range; R15 on either side. -/
theorem witness_RegisterWritesReachOneRegister :
    bank .user .r8 = bank .irq .r8 ∧ bank .user .r8 ≠ bank .fiq .r8 ∧ bank .fiq .r7 = bank .user .r7
      ∧ bank .user .r14 = bank .system .r14 ∧ Reg.r14 ≠ .r15 ∧ bank .user .r0 ≠ bank .user .r14 := by decide

theorem witness_BanksOfTheModes :
    bank .user .r8 = bank .irq .r8 ∧ bank .fiq .r12 ≠ bank .irq .r12 ∧ bank .user .r13 = bank .system .r13
      ∧ bank .abort .r14 ≠ bank .undefined .r14 := by decide

theorem witness_ExceptionEntryTransition :
    Exception.dataAbort ≠ .reset ∧ Exception.fiq ≠ .reset ∧ user.thumb = false := by decide

theorem witness_ResetTakenInARun :
    let s := requested { Inputs.idle with reset := true }
    s.sample.inputs.reset = true ∧ s.modeLegal = true ∧ s.thumb = false := by decide

theorem witness_FastInterruptTaken :
    let s := requested { Inputs.idle with fiq := true, irq := true }
    s.sample.inputs.reset = false ∧ s.modeLegal = true ∧ s.thumb = false ∧ s.sample.inputs.fiq = true
      ∧ Psr.f s.cpsr = false := by decide

/-- Both clauses, with nFIQ not asserted and with it masked. -/
theorem witness_InterruptRequestTaken :
    let s := requested { Inputs.idle with irq := true }
    let masked := { requested { Inputs.idle with fiq := true, irq := true } with cpsr := 0x000000D0#32 }
    (s.sample.inputs.reset = false ∧ s.modeLegal = true ∧ s.thumb = false
        ∧ (s.sample.inputs.fiq = false ∨ Psr.f s.cpsr = true) ∧ s.sample.inputs.irq = true ∧ Psr.i s.cpsr = false)
      ∧ (masked.sample.inputs.reset = false ∧ masked.modeLegal = true ∧ masked.thumb = false
        ∧ (masked.sample.inputs.fiq = false ∨ Psr.f masked.cpsr = true) ∧ masked.sample.inputs.irq = true
        ∧ Psr.i masked.cpsr = true) := by decide

/-- Masks set; a step that changes I by an entry, one by an exit instruction. -/
theorem witness_InterruptMasksHoldRequestsPending :
    Psr.i State.reset.cpsr = true ∧ Psr.f State.reset.cpsr = true
      ∧ (step (running 0xEF000011) = .next (after (running 0xEF000011))
        ∧ Psr.i (after (running 0xEF000011)).cpsr ≠ Psr.i (running 0xEF000011).cpsr)
      ∧ (step (handling 0x60000010#32 0xE1B0F00E) = .next (after (handling 0x60000010#32 0xE1B0F00E))
        ∧ Psr.i (after (handling 0x60000010#32 0xE1B0F00E)).cpsr ≠ Psr.i (handling 0x60000010#32 0xE1B0F00E).cpsr) :=
  ⟨by decide, by decide, ⟨step_after (by decide), by decide⟩, step_after (by decide), by decide⟩

/-- All four exceptions raised at one boundary. -/
theorem witness_HighestPriorityIsTakenFirst :
    let s := requested { reset := true, fiq := true, irq := true, aborts := [{ first := 0, last := 0xFFFF, kind := .fetch }] }
    s.modeLegal = true ∧ s.thumb = false ∧ s.raises .reset = true ∧ s.raises .fiq = true ∧ s.raises .irq = true
      ∧ s.raises .prefetchAbort = true := by decide

theorem witness_FiqInterruptsIrqButNotConversely :
    let s := requested { Inputs.idle with fiq := true, irq := true }
    Psr.f s.cpsr = false ∧ s.inputs.reset = false ∧ s.inputs.fiq = true := by decide

theorem witness_PrefetchAbortTakenInPlaceOfTheInstruction :
    let s := requested { Inputs.idle with aborts := [{ first := 0x8000, last := 0x8000, kind := .fetch }] }
    s.sample.inputs.reset = false ∧ s.modeLegal = true ∧ s.thumb = false
      ∧ (s.sample.inputs.fiq = false ∨ Psr.f s.cpsr = true) ∧ (s.sample.inputs.irq = false ∨ Psr.i s.cpsr = true)
      ∧ s.sample.abortReq s.pc .fetch = true := by decide

/-- THUMB state with Reset and both interrupts asserted and neither masked. -/
theorem witness_InterruptFromThumbState :
    let s := { requested { Inputs.idle with reset := true, fiq := true, irq := true } with cpsr := 0x60000030#32 }
    s.thumb = true ∧ s.sample.inputs.reset = true ∧ s.modeLegal = true ∧ s.sample.inputs.fiq = true
      ∧ Psr.f s.cpsr = false ∧ s.sample.inputs.irq = true ∧ Psr.i s.cpsr = false ∧ Exception.fiq ≠ .reset
      ∧ Exception.irq ≠ .reset := by decide

/-- Both clauses, with nothing requested and with everything. -/
theorem witness_StatesWithoutAStep :
    let s := { user with cpsr := 0#32 }
    let u := { requested { Inputs.idle with reset := true, fiq := true, irq := true } with cpsr := 0x30#32 }
    s.mode = none ∧ u.modeLegal = true ∧ u.thumb = true := by decide

theorem witness_StepRunsTheDecodedInstruction :
    let s := running 0xE12FFF1E
    s.sample.quiet = true ∧ s.pc.extractLsb' 0 2 = 0#2 ∧ Memory.lookup s.pc.toNat s.mem = some 0x1E#8
      ∧ Memory.lookup (s.pc + 1#32).toNat s.mem = some 0xFF#8 ∧ Memory.lookup (s.pc + 2#32).toNat s.mem = some 0x2F#8
      ∧ Memory.lookup (s.pc + 3#32).toNat s.mem = some 0xE1#8
      ∧ decode [0x1E#8, 0xFF#8, 0x2F#8, 0xE1#8] = .ok (.bx .al .r14, []) := by decide

/-- The reset state with the smallest word, the last word of the address space with the largest. -/
theorem witness_PlacedWordRunsNext :
    (State.reset.sample.quiet = true ∧ State.reset.pc.extractLsb' 0 2 = 0#2 ∧ 0 < 2 ^ 32)
      ∧ ({ user with pc := 0xFFFFFFFC#32 }.sample.quiet = true
        ∧ { user with pc := 0xFFFFFFFC#32 }.pc.extractLsb' 0 2 = 0#2 ∧ 0xFFFFFFFF < 2 ^ 32) := by decide

theorem witness_BranchToItselfIsAFixedPoint : user.sample.quiet = true ∧ user.pc.extractLsb' 0 2 = 0#2 := by decide

/-- A step that stays in ARM state, one that enters THUMB state, one that takes Reset. -/
theorem witness_ProgramCounterStaysAligned :
    let s := (place 0x10#32 0x8000#32 0x00000201#32 0#32).withFetchWord 32 0xE12FFF1E
    let u := requested { Inputs.idle with reset := true }
    ((running 0xEA800000).pcAligned = true ∧ step (running 0xEA800000) = .next (after (running 0xEA800000))
        ∧ (after (running 0xEA800000)).thumb = false)
      ∧ (s.pcAligned = true ∧ step s = .next (after s) ∧ (after s).thumb = true)
      ∧ (u.pcAligned = true ∧ step u = .next (after u)) :=
  ⟨⟨by decide, step_after (by decide), by decide⟩, ⟨by decide, step_after (by decide), by decide⟩, by decide,
    step_after (by decide)⟩

theorem witness_StepKeepsWellFormedStates :
    ((running 0xE7F000F0).wf = true ∧ step (running 0xE7F000F0) = .next (after (running 0xE7F000F0)))
      ∧ ((handling 0x60000030#32 0xE1B0F00E).wf = true
        ∧ step (handling 0x60000030#32 0xE1B0F00E) = .next (after (handling 0x60000030#32 0xE1B0F00E))) :=
  ⟨⟨by decide, step_after (by decide)⟩, by decide, step_after (by decide)⟩

/-- An initial state; one state short of each clause: the mode, T, bit 0 and bit 1 of pc. -/
theorem witness_ResetIsWellFormed :
    (user.initial = true ∧ Memory.wf user.mem = true) ∧ (running 0xEF000011).initial = true
      ∧ { user with cpsr := 0#32 }.initial = false ∧ { user with cpsr := 0x30#32 }.initial = false
      ∧ { user with pc := 0x8001#32 }.initial = false ∧ { user with pc := 0x8002#32 }.initial = false := by decide

theorem witness_MemoryIsNeverWritten :
    step (running 0xEF000011) = .next (after (running 0xEF000011))
      ∧ Memory.lookup 0x8000 (running 0xEF000011).mem = some 0x11#8 := ⟨step_after (by decide), by decide⟩

/-- A BL that writes R14, an entry that writes R14_svc and SPSR_svc. -/
theorem witness_RegisterFrameOfAStep :
    (step (running 0xEB000002) = .next (after (running 0xEB000002)) ∧ (running 0xEB000002).sample.inputs.reset = false
        ∧ (after (running 0xEB000002)).phys .r14 ≠ (running 0xEB000002).phys .r14)
      ∧ (step { running 0xEF000000 with spsrSvc := 0#32 } = .next (after { running 0xEF000000 with spsrSvc := 0#32 })
        ∧ (after { running 0xEF000000 with spsrSvc := 0#32 }).phys .r14Svc ≠ (running 0xEF000000).phys .r14Svc
        ∧ (after { running 0xEF000000 with spsrSvc := 0#32 }).spsr .supervisor ≠ 0#32) :=
  ⟨⟨step_after (by decide), by decide, by decide⟩, step_after (by decide), by decide, by decide⟩

/-- The three writers: an entry, BX, an exit instruction. -/
theorem witness_StatusChangesOnlyByItsWriters :
    let s := (place 0x10#32 0x8000#32 0x00000201#32 0#32).withFetchWord 32 0xE12FFF1E
    let u := handling 0x60000010#32 0xE1B0F00E
    (step (running 0xEF000011) = .next (after (running 0xEF000011))
        ∧ (after (running 0xEF000011)).cpsr ≠ (running 0xEF000011).cpsr)
      ∧ (step s = .next (after s) ∧ (after s).cpsr ≠ s.cpsr)
      ∧ (step u = .next (after u) ∧ (after u).cpsr ≠ u.cpsr) :=
  ⟨⟨step_after (by decide), by decide⟩, ⟨step_after (by decide), by decide⟩, step_after (by decide), by decide⟩

/-- User to Supervisor, a return to User, a return to System. -/
theorem witness_ModesAreEnteredAsTheSpecLists :
    let s := running 0xEF000011
    let u := handling 0x60000010#32 0xE1B0F00E
    let v := handling 0x8000001F#32 0xE1B0F00E
    (step s = .next (after s) ∧ s.mode = some .user ∧ (after s).mode = some .supervisor)
      ∧ (step u = .next (after u) ∧ (after u).mode = some .user ∧ u.mode ≠ some .user)
      ∧ (step v = .next (after v) ∧ (after v).mode = some .system ∧ v.mode ≠ some .system) :=
  ⟨⟨step_after (by decide), by decide, by decide⟩, ⟨step_after (by decide), by decide, by decide⟩,
    step_after (by decide), by decide, by decide⟩

/-- The two ends of the amounts. -/
theorem witness_LogicalShiftLeft :
    (1 ≤ 1 ∧ 1 ≤ 31 ∧ shiftLsl 0xFFFFFFFF#32 1 = some { result := 0xFFFFFFFE#32, carry := true })
      ∧ (1 ≤ 31 ∧ 31 ≤ 31 ∧ shiftLsl 0xFFFFFFFF#32 31 = some { result := 0x80000000#32, carry := true }) := by decide

/-- The two ends of the amounts. -/
theorem witness_LogicalShiftRight :
    (1 ≤ 1 ∧ 1 ≤ 31 ∧ shiftLsr 0xFFFFFFFF#32 1 = some { result := 0x7FFFFFFF#32, carry := true })
      ∧ (1 ≤ 31 ∧ 31 ≤ 31 ∧ shiftLsr 0xFFFFFFFF#32 31 = some { result := 0x00000001#32, carry := true }) := by decide

/-- The two ends of the amounts. -/
theorem witness_ArithmeticShiftRight :
    (1 ≤ 1 ∧ 1 ≤ 31 ∧ shiftAsr 0x80000000#32 1 = some { result := 0xC0000000#32, carry := false })
      ∧ (1 ≤ 31 ∧ 31 ≤ 31 ∧ shiftAsr 0x80000000#32 31 = some { result := 0xFFFFFFFF#32, carry := false }) := by decide

/-- The two ends of the amounts. -/
theorem witness_RotateRight :
    (1 ≤ 1 ∧ 1 ≤ 31 ∧ shiftRor 0x00000001#32 1 = some { result := 0x80000000#32, carry := true })
      ∧ (1 ≤ 31 ∧ 31 ≤ 31 ∧ shiftRor 0x00000001#32 31 = some { result := 0x00000002#32, carry := false }) := by decide

theorem witness_AddressingModesOfTheSource :
    ((0x00F#12).getLsbD 4 = false ∧ (0x00F#12).extractLsb' 5 7 = 0#7)
      ∧ ((0xFE0#12).getLsbD 4 = false ∧ (0xFE0#12).extractLsb' 5 7 ≠ 0#7)
      ∧ shiftValue .lsl (addressed.readReg .user .r2) 2 (Psr.c addressed.cpsr) = some { result := 12#32, carry := false }
      ∧ shiftValue .ror (addressed.readReg .user .r2) 0 (Psr.c addressed.cpsr)
        = some { result := 0x80000001#32, carry := true } := by decide

theorem witness_MemoryReadsWhatWasWritten :
    Width.word.aligned 0xFFFFFFFC#32 = true ∧ Width.half.aligned 0xFFFFFFFE#32 = true
      ∧ Width.byte.aligned 0xFFFFFFFF#32 = true := by decide

theorem witness_MisalignedAccessIsRefused :
    (0xFFFFFFFE#32).toNat % 4 ≠ 0 ∧ (0x00000001#32).toNat % 4 ≠ 0 ∧ (0x00000003#32).toNat % 2 ≠ 0 := by decide

theorem witness_DataAbortOnAnAbortedRead :
    let s := requested { Inputs.idle with aborts := [{ first := 0x1000, last := 0x1003, kind := .read }] }
    s.thumb = false ∧ Width.word.aligned 0x1000#32 = true ∧ s.abortReq 0x1000#32 .read = true
      ∧ Width.byte.aligned 0x1003#32 = true ∧ s.abortReq 0x1003#32 .read = true
      ∧ s.abortReq 0x1004#32 .read = false := by decide

end Sys2Proof.Tests
end

section
/-! PROOFS of the state family (10_state.md). What a step keeps of the program counter's alignment (R26), of the request levels and
of the interrupt masks (R32), each read off the one list of effects a step can have (`step_effect`). -/

namespace Sys2Proof.Machine

/-! ### The program counter (R26) -/

/-- The two clauses of R26, bit by bit. -/
theorem State.pcAligned_iff {s : State} :
    s.pcAligned = true ↔
      (s.thumb = false → s.pc.getLsbD 0 = false ∧ s.pc.getLsbD 1 = false) ∧ (s.thumb = true → s.pc.getLsbD 0 = false) := by
  unfold State.pcAligned
  cases s.thumb with
  | false => simp [wordAligned_iff]
  | true => simp

@[simp] theorem State.sample_pcAligned (s : State) : s.sample.pcAligned = s.pcAligned := by simp [State.pcAligned]

theorem State.thumb_of_quiet {s : State} (h : s.quiet = true) : s.thumb = false := by
  simp only [State.quiet, Bool.and_eq_true, Bool.not_eq_true'] at h
  obtain ⟨⟨_, arm⟩, _⟩ := h
  exact arm

/-- A loaded pc and CPSR are aligned together when the target is aligned for the T bit that comes with it. -/
theorem State.pcAligned_of_target {t : State} (h : if t.thumb then t.pc.getLsbD 0 = false else wordAligned t.pc = true) :
    t.pcAligned = true := by
  split at h
  · next ht => exact State.pcAligned_of_thumb ht h
  · next ht => exact State.pcAligned_of_arm (Bool.eq_false_of_not_eq_true ht) h

/-- The vectors are word addresses, and an entry always ends in ARM state (T = 0). -/
theorem State.takeException_pcAligned (s : State) (e : Exception) : (s.takeException e).pcAligned = true := by
  refine State.pcAligned_of_arm (s.takeException_thumb e) ?_
  rw [State.takeException_pc]
  exact e.vector_aligned

/-- Run in ARM state, every effect goes to an address aligned for the state it leaves. -/
theorem Effect.pcAligned {i : Instr} {s t : State} (h : Effect i s t) (arm : s.thumb = false)
    (aligned : wordAligned s.pc = true) : t.pcAligned = true := by
  cases h with
  | passedOver _ _ _ ht => subst ht; exact State.pcAligned_of_arm arm (wordAligned_add aligned rfl)
  | branched rel ht => subst ht; exact State.pcAligned_of_arm arm (wordAligned_branchTarget rel aligned)
  | linked _ rel _ ht => subst ht; exact State.pcAligned_of_arm arm (wordAligned_branchTarget rel aligned)
  | exchanged _ _ thumb _ _ ht target =>
    subst ht
    refine State.pcAligned_of_target ?_
    simpa [State.thumb] using target
  | called _ _ _ _ _ ht => subst ht; exact State.takeException_pcAligned _ _
  | trapped _ _ _ _ _ ht => subst ht; exact State.takeException_pcAligned _ _
  | returned _ _ _ _ _ _ _ _ ht target => subst ht; exact State.pcAligned_of_target target

/-- R26 as an invariant: instructions run only in ARM state, where an aligned pc is a word address. -/
theorem step_keeps_pcAligned {s t : State} (aligned : s.pcAligned = true) (h : step s = .next t) : t.pcAligned = true := by
  rcases step_effect h with ⟨e, _, rfl⟩ | ⟨i, due, effect⟩
  · exact State.takeException_pcAligned _ e
  · obtain ⟨quiet, _⟩ := State.due_run due
    have arm : s.sample.thumb = false := State.thumb_of_quiet quiet
    have word : wordAligned s.sample.pc = true := by
      rw [← State.sample_pcAligned, State.pcAligned, arm] at aligned
      exact aligned
    exact effect.pcAligned arm word

/-! ### The request levels and the masks (R32) -/

theorem State.due_ne_irq_of_masked {s : State} (h : Psr.i s.cpsr = true) : s.due ≠ .take .irq := by
  intro due
  obtain ⟨raised, _⟩ := State.due_take due
  simp [State.raises, h] at raised

theorem State.due_ne_fiq_of_masked {s : State} (h : Psr.f s.cpsr = true) : s.due ≠ .take .fiq := by
  intro due
  obtain ⟨raised, _⟩ := State.due_take due
  simp [State.raises, h] at raised

/-- No instruction drives the request levels. -/
theorem Effect.inputs_eq {i : Instr} {s t : State} (h : Effect i s t) : t.inputs = s.inputs := by
  cases h with
  | passedOver _ _ _ ht => subst ht; rfl
  | branched _ ht => subst ht; rfl
  | linked _ _ _ ht => subst ht; rfl
  | exchanged _ _ _ _ _ ht => subst ht; rfl
  | called _ _ _ _ _ ht => subst ht; exact State.takeException_inputs _ _
  | trapped _ _ _ _ _ ht => subst ht; exact State.takeException_inputs _ _
  | returned _ _ _ _ _ _ _ _ ht => subst ht; rfl

theorem step_inputs_eq_sampled {s t : State} (h : step s = .next t) : t.inputs = s.sample.inputs := by
  rcases step_effect h with ⟨e, _, rfl⟩ | ⟨i, _, effect⟩
  · exact State.takeException_inputs _ e
  · exact effect.inputs_eq

@[simp] theorem Psr.withT_i (p : Word) (t : Bool) : Psr.i (Psr.withT p t) = Psr.i p := Psr.withT_bit p t (by decide)

@[simp] theorem Psr.withT_f (p : Word) (t : Bool) : Psr.f (Psr.withT p t) = Psr.f p := Psr.withT_bit p t (by decide)

/-- An instruction keeps I and F, or takes an exception, or restores CPSR from the SPSR of the mode it runs in: of the rest only BX
writes CPSR, and T alone. -/
theorem Effect.masks_kept_or_written {i : Instr} {s t : State} (h : Effect i s t) :
    (Psr.i t.cpsr = Psr.i s.cpsr ∧ Psr.f t.cpsr = Psr.f s.cpsr) ∨ (∃ e, t = s.takeException e)
      ∨ ∃ m e, s.mode = some m ∧ m.saved = some e ∧ t.cpsr = s.spsr e := by
  cases h with
  | passedOver _ _ _ ht => subst ht; exact .inl ⟨rfl, rfl⟩
  | branched _ ht => subst ht; exact .inl ⟨rfl, rfl⟩
  | linked _ _ _ ht => subst ht; exact .inl ⟨rfl, rfl⟩
  | exchanged _ _ thumb _ _ ht => subst ht; exact .inl ⟨Psr.withT_i s.cpsr thumb, Psr.withT_f s.cpsr thumb⟩
  | called _ _ _ _ _ ht => exact .inr (.inl ⟨_, ht⟩)
  | trapped _ _ _ _ _ ht => exact .inr (.inl ⟨_, ht⟩)
  | returned _ m e _ _ hm he _ ht => subst ht; exact .inr (.inr ⟨m, e, hm, he, rfl⟩)

/-- I and F have two writers (R32): an exception entry, and the restoring of CPSR from the SPSR of the current mode. -/
theorem step_masks_kept_or_written {s t : State} (h : step s = .next t) :
    (Psr.i t.cpsr = Psr.i s.cpsr ∧ Psr.f t.cpsr = Psr.f s.cpsr) ∨ (∃ e, t = s.sample.takeException e)
      ∨ ∃ m e, s.mode = some m ∧ m.saved = some e ∧ t.cpsr = s.spsr e := by
  rcases step_effect h with ⟨e, _, ht⟩ | ⟨i, _, effect⟩
  · exact .inr (.inl ⟨e, ht⟩)
  · simpa using effect.masks_kept_or_written

end Sys2Proof.Machine

namespace Sys2Proof.Proofs.StateFamily

open Sys2Proof.Machine

/-- Settles O44: the invariant of R26 holds of every effect a step can have. -/
theorem programCounterStaysAligned : Obligations.ProgramCounterStaysAligned := fun _ _ aligned h =>
  State.pcAligned_iff.mp (step_keeps_pcAligned aligned h)

/-- Settles O35: a masked request is not raised, so not due; and the two writers of I and F are those of `step_masks_kept_or_written`. -/
theorem interruptMasksHoldRequestsPending : Obligations.InterruptMasksHoldRequestsPending := by
  intro s
  refine ⟨fun masked => State.due_ne_irq_of_masked (by rwa [State.sample_cpsr]),
    fun masked => State.due_ne_fiq_of_masked (by rwa [State.sample_cpsr]),
    fun t h => ⟨step_inputs_eq_sampled h, fun changed => ?_⟩⟩
  rcases step_masks_kept_or_written h with ⟨keptI, keptF⟩ | writer
  · rcases changed with hi | hf
    · exact absurd keptI hi
    · exact absurd keptF hf
  · exact writer

end Sys2Proof.Proofs.StateFamily
end

section
/-! PROOFS of the data-processing family (41_data_processing.md). The value of each shift at the amounts the rules give (R161, R162,
R164, R166), and the bits of that value. -/

namespace Sys2Proof.Machine

/-! ### The amounts of R166 -/

theorem shiftAmountGiven_iff {n : Nat} : shiftAmountGiven n = true ↔ 1 ≤ n ∧ n ≤ 31 := by simp [shiftAmountGiven]

theorem shiftLsl_of_given {m : Word} {n : Nat} (given : shiftAmountGiven n = true) :
    shiftLsl m n = some { result := m <<< n, carry := m.getLsbD (32 - n) } := if_pos given

theorem shiftLsr_of_given {m : Word} {n : Nat} (given : shiftAmountGiven n = true) :
    shiftLsr m n = some { result := m >>> n, carry := m.getLsbD (n - 1) } := if_pos given

theorem shiftRor_of_given {m : Word} {n : Nat} (given : shiftAmountGiven n = true) :
    shiftRor m n = some { result := m.rotateRight n, carry := m.getLsbD (n - 1) } := if_pos given

/-- The amounts are closed under `32 - n`, the rotation that undoes one by `n`. -/
theorem shiftAmountGiven_complement {n : Nat} (given : shiftAmountGiven n = true) : shiftAmountGiven (32 - n) = true := by
  rw [shiftAmountGiven_iff] at given ⊢
  omega

/-- A plain register operand (R161): the register's value, with no carry-out. -/
@[simp] theorem State.operand2_register (s : State) (mode : Mode) (rn : Reg) :
    s.operand2 mode (.register rn) = some { value := s.readReg mode rn, carry := none } := rfl

/-! ### Bits of the results -/

theorem getLsbD_lsl (m : Word) (n : Nat) {k : Nat} (hk : k < 32) :
    (m <<< n).getLsbD k = (decide (n ≤ k) && m.getLsbD (k - n)) := by
  simp only [BitVec.getLsbD_shiftLeft, hk, ← decide_not, Nat.not_lt, decide_true, Bool.true_and]

/-- Above the word every bit reads 0, which is the zeros that enter at the top. -/
theorem getLsbD_lsr (m : Word) (n k : Nat) : (m >>> n).getLsbD k = (decide (k + n < 32) && m.getLsbD (k + n)) := by
  rw [BitVec.getLsbD_ushiftRight, Nat.add_comm n k]
  by_cases inside : k + n < 32
  · simp [inside]
  · simp [inside, BitVec.getLsbD_of_ge m (k + n) (Nat.le_of_not_lt inside)]

/-- A zero enters at bit 31, so the result is not negative. -/
theorem lsr_toInt_nonneg (m : Word) {n : Nat} (pos : 0 < n) : 0 ≤ (m >>> n).toInt := by
  refine BitVec.toInt_nonneg_of_msb_false ?_
  simp [BitVec.msb_ushiftRight, pos]

/-- Bit `k` of a rotation by `n` comes from `n` places up, around the word. -/
theorem getLsbD_ror (m : Word) {n k : Nat} (hn : n < 32) (hk : k < 32) :
    (m.rotateRight n).getLsbD k = m.getLsbD ((k + n) % 32) := by
  rw [BitVec.getLsbD_rotateRight_of_lt hn]
  by_cases low : k < 32 - n
  · have source : n + k = (k + n) % 32 := by omega
    simp [low, source]
  · have source : k - (32 - n) = (k + n) % 32 := by omega
    simp [low, hk, source]

/-- The two rotations together go once around the word. -/
theorem ror_ror_complement (m : Word) {n : Nat} (pos : 1 ≤ n) (hn : n < 32) :
    (m.rotateRight n).rotateRight (32 - n) = m := by
  refine BitVec.eq_of_getLsbD_eq fun k hk => ?_
  have around : ((k + (32 - n)) % 32 + n) % 32 = k := by omega
  rw [getLsbD_ror _ (by omega) hk, getLsbD_ror m hn (Nat.mod_lt _ (by decide)), around]

end Sys2Proof.Machine

namespace Sys2Proof.Proofs.DataProcessingFamily

open Sys2Proof.Machine

/-- Settles O54: by the source of each bit of a rotation (`getLsbD_ror`); bit 31 comes from bit `n - 1`, which is the carry-out. -/
theorem rotateRight : Obligations.RotateRight := by
  intro m n pos le
  have given := shiftAmountGiven_iff.mpr ⟨pos, le⟩
  have hn : n < 32 := by omega
  have top : (31 + n) % 32 = n - 1 := by omega
  refine ⟨_, shiftRor_of_given given, fun k hk => getLsbD_ror m hn hk, rfl, ?_,
    _, shiftRor_of_given (shiftAmountGiven_complement given), ror_ror_complement m pos hn⟩
  rw [getLsbD_ror m hn (by decide), top]

/-- Settles O51: the bits of a left shift (`getLsbD_lsl`), and the plain register operand (`State.operand2_register`). -/
theorem logicalShiftLeft : Obligations.LogicalShiftLeft := fun m n pos le =>
  ⟨⟨_, shiftLsl_of_given (shiftAmountGiven_iff.mpr ⟨pos, le⟩), fun _ hk => getLsbD_lsl m n hk, rfl⟩,
    State.operand2_register⟩

/-- Settles O52: the bits of a right shift (`getLsbD_lsr`), whose sign bit is an entering zero. -/
theorem logicalShiftRight : Obligations.LogicalShiftRight := fun m n pos le =>
  ⟨_, shiftLsr_of_given (shiftAmountGiven_iff.mpr ⟨pos, le⟩), fun k _ => getLsbD_lsr m n k, rfl, lsr_toInt_nonneg m pos⟩

end Sys2Proof.Proofs.DataProcessingFamily
end

section
/-! PROOFS of the exceptions family (60_exceptions.md). How a step changes the mode (R263), read off the one list of effects a step can
have (`step_effect`); and what is entered where FIQ, IRQ or SWI is taken (R247, R246, R244). -/

namespace Sys2Proof.Machine

/-! ### The modes exceptions enter (R240, R263) -/

/-- User and System mode have no exception, as they have no SPSR. -/
theorem ExcMode.mode_ne_user_system (x : ExcMode) : x.mode ≠ .user ∧ x.mode ≠ .system := by cases x <;> decide

theorem Exception.mode_eq_supervisor {e : Exception} : e.mode.mode = .supervisor ↔ e = .reset ∨ e = .softwareInterrupt := by
  cases e <;> decide

/-- Which exceptions enter each of the other exception modes. -/
theorem Exception.mode_eq_iff (e : Exception) :
    (e.mode.mode = .abort ↔ e = .dataAbort ∨ e = .prefetchAbort) ∧ (e.mode.mode = .irq ↔ e = .irq)
      ∧ (e.mode.mode = .fiq ↔ e = .fiq) ∧ (e.mode.mode = .undefined ↔ e = .undefined) := by
  cases e <;> decide

/-! ### How a step changes the mode (R263) -/

/-- BX keeps the mode: it writes T alone. -/
theorem State.mode_withT (s : State) (thumb : Bool) (target : Word) :
    State.mode { s with cpsr := Psr.withT s.cpsr thumb, pc := target } = s.mode :=
  congrArg Mode.ofCode (Psr.withT_m s.cpsr thumb)

/-- An instruction keeps the mode, or takes an exception, Supervisor's only if it is SWI, or is an exit instruction. -/
theorem Effect.mode_kept_or_written {i : Instr} {s t : State} (h : Effect i s t) :
    t.mode = s.mode
      ∨ (∃ e, t = s.takeException e ∧ (e.mode.mode = .supervisor → ∃ c ignored, i = .swi c ignored))
      ∨ ∃ m e, (exitCorrection i).isSome = true ∧ s.mode = some m ∧ m.saved = some e
          ∧ t.mode = Mode.ofCode (Psr.m (s.spsr e)) := by
  cases h with
  | passedOver _ _ _ ht => subst ht; exact .inl rfl
  | branched _ ht => subst ht; exact .inl rfl
  | linked _ _ _ ht => subst ht; exact .inl rfl
  | exchanged _ _ thumb target _ ht => subst ht; exact .inl (s.mode_withT thumb target)
  | called c ignored hi _ _ ht => exact .inr (.inl ⟨_, ht, fun _ => ⟨c, ignored, hi⟩⟩)
  | trapped _ _ _ _ _ ht => exact .inr (.inl ⟨_, ht, fun h => by cases h⟩)
  | returned _ m e _ hi hm he _ ht => subst ht; exact .inr (.inr ⟨m, e, by simp [hi], hm, he, rfl⟩)

/-- Of the two exceptions that enter Supervisor mode a boundary raises Reset alone: SWI is an instruction. -/
theorem State.due_take_supervisor {s : State} {e : Exception} (due : s.due = .take e) (h : e.mode.mode = .supervisor) :
    e = .reset := by
  obtain ⟨raised, _⟩ := State.due_take due
  rcases Exception.mode_eq_supervisor.mp h with rfl | rfl
  · rfl
  · cases raised

/-- The mode has two writers (R263): an exception, which enters Supervisor mode only where Reset or SWI is due, and an exit
instruction, which restores the mode its SPSR holds. -/
theorem step_mode_kept_or_written {s t : State} (h : step s = .next t) :
    t.mode = s.mode
      ∨ (∃ e, t = s.sample.takeException e ∧ (e.mode.mode = .supervisor →
          s.sample.due = .take .reset ∨ ∃ c ignored, s.sample.due = .run (.swi c ignored)))
      ∨ ∃ i m e, s.sample.due = .run i ∧ (exitCorrection i).isSome = true ∧ s.mode = some m ∧ m.saved = some e
          ∧ t.mode = Mode.ofCode (Psr.m (s.spsr e)) := by
  rcases step_effect h with ⟨e, due, ht⟩ | ⟨i, due, effect⟩
  · exact .inr (.inl ⟨e, ht, fun svc => .inl (State.due_take_supervisor due svc ▸ due)⟩)
  · rcases effect.mode_kept_or_written with kept | ⟨e, ht, svc⟩ | ⟨m, e, exits, hm, he, restored⟩
    · exact .inl (kept.trans s.sample_mode)
    · refine .inr (.inl ⟨e, ht, fun entered => ?_⟩)
      obtain ⟨c, ignored, rfl⟩ := svc entered
      exact .inr ⟨c, ignored, due⟩
    · rw [State.sample_mode] at hm
      rw [State.sample_spsr] at restored
      exact .inr (.inr ⟨i, m, e, due, exits, hm, he, restored⟩)

/-- From User mode, which has no SPSR, Supervisor mode is entered only by Reset or SWI. -/
theorem step_user_to_supervisor {s t : State} (h : step s = .next t) (hs : s.mode = some .user)
    (ht : t.mode = some .supervisor) :
    s.sample.due = .take .reset ∨ ∃ c ignored, s.sample.due = .run (.swi c ignored) := by
  rcases step_mode_kept_or_written h with kept | ⟨e, rfl, svc⟩ | ⟨_, m, e, _, _, hm, he, _⟩
  · rw [kept, hs] at ht; cases ht
  · rw [State.takeException_mode] at ht
    exact svc (Option.some.inj ht)
  · cases hs.symm.trans hm; cases he

/-- A mode that no exception enters is entered only by an exit instruction whose SPSR holds its code. -/
theorem step_enters_by_exit {s t : State} {mode : Mode} (h : step s = .next t) (unentered : ∀ x : ExcMode, x.mode ≠ mode)
    (ht : t.mode = some mode) (hs : s.mode ≠ some mode) :
    ∃ i m e, s.sample.due = .run i ∧ (exitCorrection i).isSome = true ∧ s.mode = some m ∧ m.saved = some e
      ∧ Psr.m (s.spsr e) = mode.code := by
  rcases step_mode_kept_or_written h with kept | ⟨e, rfl, _⟩ | ⟨i, m, e, due, exits, hm, he, restored⟩
  · exact absurd (kept.symm.trans ht) hs
  · rw [State.takeException_mode] at ht
    exact absurd (Option.some.inj ht) (unentered e.mode)
  · exact ⟨i, m, e, due, exits, hm, he, Mode.code_of_ofCode (restored.symm.trans ht)⟩

/-! ### Taking an exception (R251, R253) -/

/-- The link value an entry from ARM state leaves in R14 of the mode entered (R253). -/
theorem State.takeException_link {s : State} {e : Exception} (he : e ≠ .reset) (arm : s.thumb = false) :
    (s.takeException e).phys e.mode.mode.r14 = s.pc + e.linkOffset := by
  rw [State.takeException_arm he arm, State.enter_link]

/-- A step at whose boundary an exception other than Reset is due enters its mode, with the link value R253 gives. -/
theorem step_takes_due {s : State} {e : Exception} (he : e ≠ .reset) (due : s.sample.due = .take e) :
    step s = .next (s.sample.takeException e) ∧ (s.sample.takeException e).mode = some e.mode.mode
      ∧ (s.sample.takeException e).phys e.mode.mode.r14 = s.pc + e.linkOffset := by
  obtain ⟨_, _, arm⟩ := State.due_take due
  refine ⟨by simp only [step, due], State.takeException_mode _ e, ?_⟩
  rw [State.takeException_link he arm, State.sample_pc]

/-- An unmasked nFIQ is due unless Reset is asserted (R247, R251). -/
theorem State.due_fiq {s : State} (legal : s.modeLegal = true) (arm : s.thumb = false) (noReset : s.inputs.reset = false)
    (asserted : s.inputs.fiq = true) (unmasked : Psr.f s.cpsr = false) : s.due = .take .fiq := by
  obtain ⟨m, hm⟩ := Option.isSome_iff_exists.mp legal
  simp [State.due, hm, arm, noReset, asserted, unmasked]

/-- An unmasked nIRQ is due unless Reset or an unmasked nFIQ is asserted (R246, R251). -/
theorem State.due_irq {s : State} (legal : s.modeLegal = true) (arm : s.thumb = false) (noReset : s.inputs.reset = false)
    (noFiq : s.inputs.fiq = false ∨ Psr.f s.cpsr = true) (asserted : s.inputs.irq = true)
    (unmasked : Psr.i s.cpsr = false) : s.due = .take .irq := by
  obtain ⟨m, hm⟩ := Option.isSome_iff_exists.mp legal
  have noFiq : (s.inputs.fiq && !Psr.f s.cpsr) = false := by rcases noFiq with h | h <;> simp [h]
  simp [State.due, hm, arm, noReset, noFiq, asserted, unmasked]

@[simp] theorem State.sample_modeLegal (s : State) : s.sample.modeLegal = s.modeLegal := by simp [State.modeLegal]

/-- SWI with a passing condition takes its exception in every legal mode but FIQ (R133). -/
theorem execSwi_of_passed {c : Cond} {s : State} {m : Mode} (ignored : BitVec 24) (hm : s.mode = some m)
    (notFiq : m ≠ .fiq) (passed : condPassed c s.cpsr = true) :
    execSwi c ignored s = .next (s.takeException .softwareInterrupt) := by
  rw [execSwi, whenPassed_of_passed _ passed, hm]
  cases m with
  | fiq => exact absurd rfl notFiq
  | _ => rfl

end Sys2Proof.Machine

namespace Sys2Proof.Proofs.ExceptionsFamily

open Sys2Proof.Machine

/-- Settles O50: the two writers of the mode (`step_mode_kept_or_written`), and the table of the modes exceptions enter. -/
theorem modesAreEnteredAsTheSpecLists : Obligations.ModesAreEnteredAsTheSpecLists := by
  intro s t h
  refine ⟨?_, step_user_to_supervisor h, fun e => ?_, fun e => ?_, fun ht hs => ?_,
    step_enters_by_exit h fun x => x.mode_ne_user_system.1⟩
  · rcases step_mode_kept_or_written h with kept | ⟨e, ht, _⟩ | exited
    · exact .inl kept
    · exact .inr (.inl ⟨e, ht, ht ▸ State.takeException_mode _ e⟩)
    · exact .inr (.inr exited)
  · simpa using e.mode.mode_ne_user_system
  · simpa using ⟨Exception.mode_eq_supervisor, e.mode_eq_iff⟩
  · obtain ⟨_, m, e, _, _, hm, he, code⟩ := step_enters_by_exit h (fun x => x.mode_ne_user_system.2) ht hs
    exact ⟨m, e, hm, he, code⟩

/-- Settles O33: FIQ is due (`State.due_fiq`), and its entry writes R14 of its own bank alone. -/
theorem fastInterruptTaken : Obligations.FastInterruptTaken := by
  intro s noReset legal arm asserted unmasked
  have due : s.sample.due = .take .fiq :=
    State.due_fiq (by simpa using legal) (by simpa using arm) noReset asserted (by simpa using unmasked)
  obtain ⟨taken, mode, link⟩ := step_takes_due (by decide) due
  refine ⟨taken, mode, link, fun p hp => ?_, rfl, rfl, rfl, rfl, rfl, rfl, rfl⟩
  rw [State.takeException_phys_ne (by decide) hp, State.sample_phys]

/-- Settles O34: IRQ is due while unmasked (`State.due_irq`), with its link value, and is not due while masked. -/
theorem interruptRequestTaken : Obligations.InterruptRequestTaken := by
  intro s noReset legal arm noFiq asserted
  refine ⟨fun unmasked => step_takes_due (e := .irq) (by decide) ?_,
    fun masked => State.due_ne_irq_of_masked (by rwa [State.sample_cpsr])⟩
  exact State.due_irq (by simpa using legal) (by simpa using arm) noReset (by simpa using noFiq) asserted (by simpa using unmasked)

/-- Settles O16: SWI takes its exception (`execSwi_of_passed`), whose entry goes to Supervisor mode with link A + 4. -/
theorem softwareInterruptEntersSupervisor : Obligations.SoftwareInterruptEntersSupervisor :=
  fun _ ignored _ _ hm notFiq arm passed =>
    ⟨_, execSwi_of_passed ignored hm notFiq passed, State.takeException_mode _ _, State.takeException_link (by decide) arm⟩

end Sys2Proof.Proofs.ExceptionsFamily
end


section
/-! PROOFS of the decoder and the encoder (30_encoding.md sections 3, 4). A word spells an instruction when it passes the test of its
format's line and holds its operands (one `_eq_iff` lemma for each format): read one way this is O2, read the other way O1. -/

namespace Sys2Proof

/-! ### Fields of a word -/

/-- The bits of `w` from `lo` up spell `x`. -/
def Spells (w : Word) (lo : Nat) {len : Nat} (x : BitVec len) : Prop := w.extractLsb' lo len = x

theorem spells_append {n m lo : Nat} {a : BitVec n} {b : BitVec m} {w : Word} :
    Spells w lo (a ++ b) ↔ Spells w (lo + m) a ∧ Spells w lo b := by
  rw [Spells, ← BitVec.extractLsb'_append_extractLsb'_eq_extractLsb' (start₂ := lo + m) rfl]
  constructor
  · intro h
    have left := congrArg (BitVec.extractLsb' m n) h
    have right := congrArg (BitVec.extractLsb' 0 m) h
    simp only [BitVec.extractLsb'_append_eq_left, BitVec.extractLsb'_append_eq_right] at left right
    exact ⟨left, right⟩
  · rintro ⟨rfl, rfl⟩
    rfl

theorem spells_word {w x : Word} : Spells w 0 x ↔ x = w := by
  rw [Spells, BitVec.extractLsb'_eq_self, eq_comm]

@[simp] theorem spells_code {c : Cond} {w : Word} {lo : Nat} : Spells w lo c.code ↔ Cond.ofCode (w.extractLsb' lo 4) = some c :=
  ⟨fun h => h ▸ Cond.ofCode_code c, Cond.code_of_ofCode⟩

@[simp] theorem spells_num {r : Reg} {w : Word} {lo : Nat} : Spells w lo r.num ↔ regAt w lo = r :=
  ⟨fun h => (congrArg Reg.ofNum h).trans (Reg.ofNum_num r), fun h => h ▸ (Reg.num_ofNum _).symm⟩

@[simp] theorem spells_bit {b : Bool} {w : Word} {k : Nat} : Spells w k (bit b) ↔ w.getLsbD k = b := by
  rw [Spells, BitVec.getLsbD_eq_extractLsb']
  generalize w.extractLsb' k 1 = x
  revert b x; decide

/-! ### The lines of R98 -/

/-- A mask that is a union of fields tests that each of them spells its part of the value. -/
theorem maskedEq_iff_spells {w mask value : Word} (fields : List (Nat × Nat))
    (union : ∀ k < 32, mask.getLsbD k = fields.any fun f => decide (f.1 ≤ k) && decide (k < f.1 + f.2))
    (inMask : ∀ k < 32, value.getLsbD k = true → mask.getLsbD k = true) :
    maskedEq w mask value = true ↔ ∀ f ∈ fields, Spells w f.1 (value.extractLsb' f.1 f.2) := by
  rw [maskedEq_iff]
  constructor
  · intro h f hf
    refine BitVec.eq_of_getLsbD_eq fun j hj => ?_
    simp only [BitVec.getLsbD_extractLsb', hj, decide_true, Bool.true_and]
    by_cases inside : f.1 + j < 32
    · have masked : mask.getLsbD (f.1 + j) = true := by
        rw [union _ inside, List.any_eq_true]
        exact ⟨f, hf, by simp [hj]⟩
      rw [← h _ inside, masked, Bool.and_true]
    · rw [BitVec.getLsbD_of_ge _ _ (by omega), BitVec.getLsbD_of_ge _ _ (by omega)]
  · intro h k hk
    cases masked : mask.getLsbD k with
    | false => rw [Bool.and_false, eq_comm, Bool.eq_false_iff]; exact fun hv => by simp [inMask k hk hv] at masked
    | true =>
      obtain ⟨f, hf, inside⟩ := List.any_eq_true.mp (union k hk ▸ masked)
      simp only [Bool.and_eq_true, decide_eq_true_eq] at inside
      have bit := congrArg (fun x => BitVec.getLsbD x (k - f.1)) (h f hf)
      simpa [show k - f.1 < f.2 by omega, show f.1 + (k - f.1) = k by omega] using bit

/-- Two tests that disagree on a bit both masks hold do not both pass. -/
theorem maskedEq_eq_false_of_disagree {w mask value mask' value' : Word} (h : maskedEq w mask value = true)
    (disagree : value &&& mask' ≠ value' &&& mask) : maskedEq w mask' value' = false := by
  rw [maskedEq, beq_iff_eq] at h
  rw [maskedEq, beq_eq_false_iff_ne]
  intro h'
  apply disagree
  rw [← h, ← h', BitVec.and_assoc, BitVec.and_assoc, BitVec.and_comm mask]

/-! ### The formats of R95: a word spells an instruction when it passes the line's test and holds the operands -/

theorem encode_bx_eq_iff {c rn} {w : Word} : encode (.bx c rn) = w ↔
    Cond.ofCode (w.extractLsb' 28 4) = some c ∧ maskedEq w 0x0FFFFFF0#32 0x012FFF10#32 = true ∧ regAt w 0 = rn := by
  rw [← spells_word, encode, maskedEq_iff_spells [(4, 24)] (by decide) (by decide)]
  repeat rw [spells_append]
  simp
  tauto

theorem encode_multiply_eq_iff {c a s rd rn rs rm} {w : Word} : encode (.multiply c a s rd rn rs rm) = w ↔
    Cond.ofCode (w.extractLsb' 28 4) = some c ∧ maskedEq w 0x0FC000F0#32 0x00000090#32 = true ∧ w.getLsbD 21 = a
      ∧ w.getLsbD 20 = s ∧ regAt w 16 = rd ∧ regAt w 12 = rn ∧ regAt w 8 = rs ∧ regAt w 0 = rm := by
  rw [← spells_word, encode, maskedEq_iff_spells [(22, 6), (4, 4)] (by decide) (by decide)]
  repeat rw [spells_append]
  simp
  tauto

theorem encode_longMultiply_eq_iff {c u a s rdHi rdLo rs rm} {w : Word} :
    encode (.longMultiply c u a s rdHi rdLo rs rm) = w ↔
    Cond.ofCode (w.extractLsb' 28 4) = some c ∧ maskedEq w 0x0F8000F0#32 0x00800090#32 = true ∧ w.getLsbD 22 = u
      ∧ w.getLsbD 21 = a ∧ w.getLsbD 20 = s ∧ regAt w 16 = rdHi ∧ regAt w 12 = rdLo ∧ regAt w 8 = rs ∧ regAt w 0 = rm := by
  rw [← spells_word, encode, maskedEq_iff_spells [(23, 5), (4, 4)] (by decide) (by decide)]
  repeat rw [spells_append]
  simp
  tauto

theorem encode_swap_eq_iff {c b rn rd rm} {w : Word} : encode (.swap c b rn rd rm) = w ↔
    Cond.ofCode (w.extractLsb' 28 4) = some c ∧ maskedEq w 0x0FB00FF0#32 0x01000090#32 = true ∧ w.getLsbD 22 = b
      ∧ regAt w 16 = rn ∧ regAt w 12 = rd ∧ regAt w 0 = rm := by
  rw [← spells_word, encode, maskedEq_iff_spells [(23, 5), (20, 2), (4, 8)] (by decide) (by decide)]
  repeat rw [spells_append]
  simp
  tauto

theorem encode_halfwordRegister_eq_iff {c p u wb l rn rd s h rm} {w : Word} :
    encode (.halfwordRegister c p u wb l rn rd s h rm) = w ↔
    Cond.ofCode (w.extractLsb' 28 4) = some c ∧ maskedEq w 0x0E400F90#32 0x00000090#32 = true ∧ w.getLsbD 24 = p
      ∧ w.getLsbD 23 = u ∧ w.getLsbD 21 = wb ∧ w.getLsbD 20 = l ∧ regAt w 16 = rn ∧ regAt w 12 = rd ∧ w.getLsbD 6 = s
      ∧ w.getLsbD 5 = h ∧ regAt w 0 = rm := by
  rw [← spells_word, encode, maskedEq_iff_spells [(25, 3), (22, 1), (8, 4), (7, 1), (4, 1)] (by decide) (by decide)]
  repeat rw [spells_append]
  simp
  tauto

theorem encode_halfwordImmediate_eq_iff {c p u wb l rn rd hi s h lo} {w : Word} :
    encode (.halfwordImmediate c p u wb l rn rd hi s h lo) = w ↔
    Cond.ofCode (w.extractLsb' 28 4) = some c ∧ maskedEq w 0x0E400090#32 0x00400090#32 = true ∧ w.getLsbD 24 = p
      ∧ w.getLsbD 23 = u ∧ w.getLsbD 21 = wb ∧ w.getLsbD 20 = l ∧ regAt w 16 = rn ∧ regAt w 12 = rd
      ∧ w.extractLsb' 8 4 = hi ∧ w.getLsbD 6 = s ∧ w.getLsbD 5 = h ∧ w.extractLsb' 0 4 = lo := by
  rw [← spells_word, encode, maskedEq_iff_spells [(25, 3), (22, 1), (7, 1), (4, 1)] (by decide) (by decide)]
  repeat rw [spells_append]
  simp
  tauto

theorem encode_movsPcR14_eq_iff {c} {w : Word} : encode (.movsPcR14 c) = w ↔
    Cond.ofCode (w.extractLsb' 28 4) = some c ∧ maskedEq w 0x0FFFFFFF#32 0x01B0F00E#32 = true := by
  rw [← spells_word, encode,
    maskedEq_iff_spells [(26, 2), (25, 1), (21, 4), (20, 1), (16, 4), (12, 4), (0, 12)] (by decide) (by decide)]
  repeat rw [spells_append]
  simp
  tauto

theorem encode_subsPcR14By4_eq_iff {c} {w : Word} : encode (.subsPcR14By4 c) = w ↔
    Cond.ofCode (w.extractLsb' 28 4) = some c ∧ maskedEq w 0x0FFFFFFF#32 0x025EF004#32 = true := by
  rw [← spells_word, encode,
    maskedEq_iff_spells [(26, 2), (25, 1), (21, 4), (20, 1), (16, 4), (12, 4), (8, 4), (0, 8)] (by decide) (by decide)]
  repeat rw [spells_append]
  simp
  tauto

theorem encode_subsPcR14By8_eq_iff {c} {w : Word} : encode (.subsPcR14By8 c) = w ↔
    Cond.ofCode (w.extractLsb' 28 4) = some c ∧ maskedEq w 0x0FFFFFFF#32 0x025EF008#32 = true := by
  rw [← spells_word, encode,
    maskedEq_iff_spells [(26, 2), (25, 1), (21, 4), (20, 1), (16, 4), (12, 4), (8, 4), (0, 8)] (by decide) (by decide)]
  repeat rw [spells_append]
  simp
  tauto

theorem encode_dataProcessing_eq_iff {c i opcode s rn rd operand2} {w : Word} :
    encode (.dataProcessing c i opcode s rn rd operand2) = w ↔
    Cond.ofCode (w.extractLsb' 28 4) = some c ∧ maskedEq w 0x0C000000#32 0x00000000#32 = true ∧ w.getLsbD 25 = i
      ∧ w.extractLsb' 21 4 = opcode ∧ w.getLsbD 20 = s ∧ regAt w 16 = rn ∧ regAt w 12 = rd
      ∧ w.extractLsb' 0 12 = operand2 := by
  rw [← spells_word, encode, maskedEq_iff_spells [(26, 2)] (by decide) (by decide)]
  repeat rw [spells_append]
  simp
  tauto

theorem encode_undefined_eq_iff {c high low} {w : Word} : encode (.undefined c high low) = w ↔
    Cond.ofCode (w.extractLsb' 28 4) = some c ∧ maskedEq w 0x0E000010#32 0x06000010#32 = true
      ∧ w.extractLsb' 5 20 = high ∧ w.extractLsb' 0 4 = low := by
  rw [← spells_word, encode, maskedEq_iff_spells [(25, 3), (4, 1)] (by decide) (by decide)]
  repeat rw [spells_append]
  simp
  tauto

theorem encode_wordTransfer_eq_iff {c i p u b wb l rn rd offset} {w : Word} :
    encode (.wordTransfer c i p u b wb l rn rd offset) = w ↔
    Cond.ofCode (w.extractLsb' 28 4) = some c ∧ maskedEq w 0x0C000000#32 0x04000000#32 = true ∧ w.getLsbD 25 = i
      ∧ w.getLsbD 24 = p ∧ w.getLsbD 23 = u ∧ w.getLsbD 22 = b ∧ w.getLsbD 21 = wb ∧ w.getLsbD 20 = l
      ∧ regAt w 16 = rn ∧ regAt w 12 = rd ∧ w.extractLsb' 0 12 = offset := by
  rw [← spells_word, encode, maskedEq_iff_spells [(26, 2)] (by decide) (by decide)]
  repeat rw [spells_append]
  simp
  tauto

theorem encode_blockTransfer_eq_iff {c p u s wb l rn list} {w : Word} : encode (.blockTransfer c p u s wb l rn list) = w ↔
    Cond.ofCode (w.extractLsb' 28 4) = some c ∧ maskedEq w 0x0E000000#32 0x08000000#32 = true ∧ w.getLsbD 24 = p
      ∧ w.getLsbD 23 = u ∧ w.getLsbD 22 = s ∧ w.getLsbD 21 = wb ∧ w.getLsbD 20 = l ∧ regAt w 16 = rn
      ∧ w.extractLsb' 0 16 = list := by
  rw [← spells_word, encode, maskedEq_iff_spells [(25, 3)] (by decide) (by decide)]
  repeat rw [spells_append]
  simp
  tauto

theorem encode_coprocessorDataTransfer_eq_iff {c p u n wb l rn crd cpNum offset} {w : Word} :
    encode (.coprocessorDataTransfer c p u n wb l rn crd cpNum offset) = w ↔
    Cond.ofCode (w.extractLsb' 28 4) = some c ∧ maskedEq w 0x0E000000#32 0x0C000000#32 = true ∧ w.getLsbD 24 = p
      ∧ w.getLsbD 23 = u ∧ w.getLsbD 22 = n ∧ w.getLsbD 21 = wb ∧ w.getLsbD 20 = l ∧ regAt w 16 = rn
      ∧ w.extractLsb' 12 4 = crd ∧ w.extractLsb' 8 4 = cpNum ∧ w.extractLsb' 0 8 = offset := by
  rw [← spells_word, encode, maskedEq_iff_spells [(25, 3)] (by decide) (by decide)]
  repeat rw [spells_append]
  simp
  tauto

theorem encode_coprocessorDataOperation_eq_iff {c cpOpcode crn crd cpNum cp crm} {w : Word} :
    encode (.coprocessorDataOperation c cpOpcode crn crd cpNum cp crm) = w ↔
    Cond.ofCode (w.extractLsb' 28 4) = some c ∧ maskedEq w 0x0F000010#32 0x0E000000#32 = true
      ∧ w.extractLsb' 20 4 = cpOpcode ∧ w.extractLsb' 16 4 = crn ∧ w.extractLsb' 12 4 = crd
      ∧ w.extractLsb' 8 4 = cpNum ∧ w.extractLsb' 5 3 = cp ∧ w.extractLsb' 0 4 = crm := by
  rw [← spells_word, encode, maskedEq_iff_spells [(24, 4), (4, 1)] (by decide) (by decide)]
  repeat rw [spells_append]
  simp
  tauto

theorem encode_coprocessorRegisterTransfer_eq_iff {c cpOpcode l crn rd cpNum cp crm} {w : Word} :
    encode (.coprocessorRegisterTransfer c cpOpcode l crn rd cpNum cp crm) = w ↔
    Cond.ofCode (w.extractLsb' 28 4) = some c ∧ maskedEq w 0x0F000010#32 0x0E000010#32 = true
      ∧ w.extractLsb' 21 3 = cpOpcode ∧ w.getLsbD 20 = l ∧ w.extractLsb' 16 4 = crn ∧ regAt w 12 = rd
      ∧ w.extractLsb' 8 4 = cpNum ∧ w.extractLsb' 5 3 = cp ∧ w.extractLsb' 0 4 = crm := by
  rw [← spells_word, encode, maskedEq_iff_spells [(24, 4), (4, 1)] (by decide) (by decide)]
  repeat rw [spells_append]
  simp
  tauto

theorem encode_swi_eq_iff {c ignored} {w : Word} : encode (.swi c ignored) = w ↔
    Cond.ofCode (w.extractLsb' 28 4) = some c ∧ maskedEq w 0x0F000000#32 0x0F000000#32 = true
      ∧ w.extractLsb' 0 24 = ignored := by
  rw [← spells_word, encode, maskedEq_iff_spells [(24, 4)] (by decide) (by decide)]
  repeat rw [spells_append]
  simp
  tauto
/-! ### The families that share a line: B and BL, and the words two lines could read -/

theorem encodeBranch_eq_iff {c : Cond} {l : Bool} {rel : BitVec 24} {w : Word} : encodeBranch c l rel = w ↔
    Cond.ofCode (w.extractLsb' 28 4) = some c
      ∧ maskedEq w 0x0F000000#32 (if l then 0x0B000000#32 else 0x0A000000#32) = true ∧ w.extractLsb' 0 24 = rel := by
  rw [← spells_word, encodeBranch]
  repeat rw [spells_append]
  cases l with
  | false =>
    rw [maskedEq_iff_spells [(25, 3), (24, 1)] (by decide) (by decide)]
    simp [bit]
    tauto
  | true =>
    rw [maskedEq_iff_spells [(25, 3), (24, 1)] (by decide) (by decide)]
    simp [bit]
    tauto

theorem encode_branchRow (c : Cond) (rel : BitVec 24) : encode (branchRow c rel) = encodeBranch c false rel := by
  cases c <;> rfl

theorem encode_linkRow (c : Cond) (rel : BitVec 24) : encode (linkRow c rel) = encodeBranch c true rel := by
  cases c <;> rfl

theorem branchRow_wellFormed (c : Cond) (rel : BitVec 24) : (branchRow c rel).wellFormed = true := by cases c <;> rfl

theorem linkRow_wellFormed (c : Cond) (rel : BitVec 24) : (linkRow c rel).wellFormed = true := by cases c <;> rfl

theorem extract_extract (w : Word) {lo len lo' len' : Nat} (h : lo' + len' ≤ len) :
    (w.extractLsb' lo len).extractLsb' lo' len' = w.extractLsb' (lo + lo') len' := by
  refine BitVec.eq_of_getLsbD_eq fun k hk => ?_
  simp [hk, show lo' + k < len by omega, Nat.add_assoc]

/-- The lines of R98 before the data-processing line, which share its bits 27:26. -/
def earlierLine (w : Word) : Bool :=
  maskedEq w 0x0FFFFFF0#32 0x012FFF10#32 || maskedEq w 0x0FC000F0#32 0x00000090#32
    || maskedEq w 0x0F8000F0#32 0x00800090#32 || maskedEq w 0x0FB00FF0#32 0x01000090#32
    || (maskedEq w 0x0E400F90#32 0x00000090#32 && (w.getLsbD 6 || w.getLsbD 5))
    || (maskedEq w 0x0E400090#32 0x00400090#32 && (w.getLsbD 6 || w.getLsbD 5))
    || maskedEq w 0x0FFFFFFF#32 0x01B0F00E#32
    || (maskedEq w 0x0FFFFFFF#32 0x025EF004#32 || maskedEq w 0x0FFFFFFF#32 0x025EF008#32)

/-- `dataProcessingClaimed`, which speaks of operands, is the tests of the earlier lines on the word that holds them. -/
theorem dataProcessingClaimed_eq_earlierLine {w : Word} (family : Spells w 26 0#2) :
    dataProcessingClaimed (w.getLsbD 25) (w.extractLsb' 21 4) (w.getLsbD 20) (regAt w 16) (regAt w 12) (w.extractLsb' 0 12)
      = earlierLine w := by
  have named (r : Reg) (lo : Nat) : regAt w lo = r ↔ w.extractLsb' lo 4 = r.num := spells_num.symm
  have clear : ∀ x : BitVec 1, ¬x = 1#1 ↔ x = 0#1 := by decide
  rw [Spells] at family
  rw [Bool.eq_iff_iff]
  simp only [dataProcessingClaimed, earlierLine, Bool.or_eq_true, Bool.and_eq_true]
  rw [maskedEq_iff_spells [(26, 2), (25, 1), (21, 4), (20, 1), (16, 4), (12, 4), (4, 8)] (by decide) (by decide),
    maskedEq_iff_spells [(26, 2), (25, 1), (22, 3), (4, 4)] (by decide) (by decide),
    maskedEq_iff_spells [(26, 2), (25, 1), (23, 2), (4, 4)] (by decide) (by decide),
    maskedEq_iff_spells [(26, 2), (25, 1), (23, 2), (21, 1), (20, 1), (4, 8)] (by decide) (by decide),
    maskedEq_iff_spells [(26, 2), (25, 1), (22, 1), (8, 4), (7, 1), (4, 1)] (by decide) (by decide),
    maskedEq_iff_spells [(26, 2), (25, 1), (22, 1), (7, 1), (4, 1)] (by decide) (by decide),
    maskedEq_iff_spells [(26, 2), (25, 1), (21, 4), (20, 1), (16, 4), (12, 4), (0, 12)] (by decide) (by decide),
    maskedEq_iff_spells [(26, 2), (25, 1), (21, 4), (20, 1), (16, 4), (12, 4), (0, 12)] (by decide) (by decide),
    maskedEq_iff_spells [(26, 2), (25, 1), (21, 4), (20, 1), (16, 4), (12, 4), (0, 12)] (by decide) (by decide)]
  simp [family, Spells, named, extract_extract, Reg.num, BitVec.getLsbD_eq_extractLsb', -BitVec.getLsbD_eq_getElem,
    clear, and_assoc, and_or_left]

theorem spells_of_dataProcessing_line {w : Word} (line : maskedEq w 0x0C000000#32 0x00000000#32 = true) : Spells w 26 0#2 :=
  (maskedEq_iff_spells [(26, 2)] (by decide) (by decide)).mp line (26, 2) (by decide)

/-- Of the words of the word-transfer line, those with I and bit 4 set are the undefined codes (R105). -/
theorem undefined_line_of_wordTransfer {w : Word} (line : maskedEq w 0x0C000000#32 0x04000000#32 = true) :
    (w.getLsbD 25 && (w.extractLsb' 0 12).getLsbD 4) = maskedEq w 0x0E000010#32 0x06000010#32 := by
  rw [maskedEq_iff_spells [(26, 2)] (by decide) (by decide)] at line
  simp only [Spells, List.mem_cons, List.not_mem_nil, or_false, forall_eq, BitVec.reduceExtractLsb'] at line
  rw [Bool.eq_iff_iff, maskedEq_iff_spells [(26, 2), (25, 1), (4, 1)] (by decide) (by decide)]
  simp [Spells, line, extract_extract, BitVec.getLsbD_eq_extractLsb', -BitVec.getLsbD_eq_getElem]

/-- A halfword word has `S H` other than 00, where the lines of multiply and swap have 00. -/
theorem maskedEq_eq_false_of_halfword {w mask value : Word} (halfword : (w.getLsbD 6 || w.getLsbD 5) = true)
    (masked : mask.getLsbD 6 = true ∧ mask.getLsbD 5 = true) (zero : value.getLsbD 6 = false ∧ value.getLsbD 5 = false) :
    maskedEq w mask value = false := by
  refine Bool.eq_false_iff.mpr fun h => ?_
  have bit6 := maskedEq_iff.mp h 6 (by decide)
  have bit5 := maskedEq_iff.mp h 5 (by decide)
  rw [masked.1, zero.1, Bool.and_true] at bit6
  rw [masked.2, zero.2, Bool.and_true] at bit5
  rw [bit6, bit5] at halfword
  cases halfword

/-- Past the line of undefined codes the lines leave only the words with bits 27:24 all set. -/
theorem swi_line_of_no_other {w : Word} (notDataProcessing : ¬maskedEq w 0x0C000000#32 0x00000000#32 = true)
    (notWord : ¬maskedEq w 0x0C000000#32 0x04000000#32 = true) (notBlock : ¬maskedEq w 0x0E000000#32 0x08000000#32 = true)
    (notBranch : ¬maskedEq w 0x0F000000#32 0x0A000000#32 = true) (notLink : ¬maskedEq w 0x0F000000#32 0x0B000000#32 = true)
    (notTransfer : ¬maskedEq w 0x0E000000#32 0x0C000000#32 = true) (notOperation : ¬maskedEq w 0x0F000010#32 0x0E000000#32 = true)
    (notRegister : ¬maskedEq w 0x0F000010#32 0x0E000010#32 = true) : maskedEq w 0x0F000000#32 0x0F000000#32 = true := by
  have exhausted : ∀ (x : BitVec 4) (y : BitVec 1), ¬x.extractLsb' 2 2 = 0#2 → ¬x.extractLsb' 2 2 = 1#2 →
      ¬x.extractLsb' 1 3 = 4#3 → ¬x = 10#4 → ¬x = 11#4 → ¬x.extractLsb' 1 3 = 6#3 → ¬(x = 14#4 ∧ y = 0#1) →
      ¬(x = 14#4 ∧ y = 1#1) → x = 15#4 := by decide
  have top2 : w.extractLsb' 26 2 = (w.extractLsb' 24 4).extractLsb' 2 2 := (extract_extract w (by decide : 2 + 2 ≤ 4)).symm
  have top3 : w.extractLsb' 25 3 = (w.extractLsb' 24 4).extractLsb' 1 3 := (extract_extract w (by decide : 1 + 3 ≤ 4)).symm
  rw [maskedEq_iff_spells [(26, 2)] (by decide) (by decide)] at notDataProcessing notWord
  rw [maskedEq_iff_spells [(25, 3)] (by decide) (by decide)] at notBlock notTransfer
  rw [maskedEq_iff_spells [(24, 4)] (by decide) (by decide)] at notBranch notLink ⊢
  rw [maskedEq_iff_spells [(24, 4), (4, 1)] (by decide) (by decide)] at notOperation notRegister
  simp only [Spells, List.mem_cons, List.not_mem_nil, or_false, forall_eq_or_imp, forall_eq, BitVec.reduceExtractLsb',
    BitVec.extractLsb'_zero] at *
  rw [top2] at notDataProcessing notWord
  rw [top3] at notBlock notTransfer
  exact exhausted _ _ notDataProcessing notWord notBlock notBranch notLink notTransfer notOperation notRegister

/-! ### From a word to its instruction and back -/

/-- `i` is well-formed and `w` is its word. -/
def IsWordOf (w : Word) (i : Instr) : Prop := encode i = w ∧ i.wellFormed = true

/-- Line by line, what the decoder reads is an instruction whose word it was given. -/
theorem isWordOf_decodeBody {c : Cond} {w : Word} (hc : Cond.ofCode (w.extractLsb' 28 4) = some c) :
    IsWordOf w (decodeBody c w) := by
  unfold decodeBody
  refine iteInduction (motive := IsWordOf w) (fun line => ?_) fun notBx => ?_
  · exact ⟨encode_bx_eq_iff.mpr ⟨hc, line, rfl⟩, rfl⟩
  refine iteInduction (fun line => ?_) fun notMultiply => ?_
  · exact ⟨encode_multiply_eq_iff.mpr ⟨hc, line, rfl, rfl, rfl, rfl, rfl, rfl⟩, rfl⟩
  refine iteInduction (fun line => ?_) fun notLong => ?_
  · exact ⟨encode_longMultiply_eq_iff.mpr ⟨hc, line, rfl, rfl, rfl, rfl, rfl, rfl, rfl⟩, rfl⟩
  refine iteInduction (fun line => ?_) fun notSwap => ?_
  · exact ⟨encode_swap_eq_iff.mpr ⟨hc, line, rfl, rfl, rfl, rfl⟩, rfl⟩
  refine iteInduction (fun test => ?_) fun notHalfReg => ?_
  · obtain ⟨line, halfword⟩ := Bool.and_eq_true_iff.mp test
    exact ⟨encode_halfwordRegister_eq_iff.mpr ⟨hc, line, rfl, rfl, rfl, rfl, rfl, rfl, rfl, rfl, rfl⟩, halfword⟩
  refine iteInduction (fun test => ?_) fun notHalfImm => ?_
  · obtain ⟨line, halfword⟩ := Bool.and_eq_true_iff.mp test
    exact ⟨encode_halfwordImmediate_eq_iff.mpr ⟨hc, line, rfl, rfl, rfl, rfl, rfl, rfl, rfl, rfl, rfl, rfl⟩, halfword⟩
  refine iteInduction (fun line => ?_) fun notMovs => ?_
  · exact ⟨encode_movsPcR14_eq_iff.mpr ⟨hc, line⟩, rfl⟩
  refine iteInduction (fun line => ?_) fun notSubs4 => ?_
  · exact ⟨encode_subsPcR14By4_eq_iff.mpr ⟨hc, line⟩, rfl⟩
  refine iteInduction (fun line => ?_) fun notSubs8 => ?_
  · exact ⟨encode_subsPcR14By8_eq_iff.mpr ⟨hc, line⟩, rfl⟩
  refine iteInduction (fun line => ?_) fun notDataProcessing => ?_
  · refine ⟨encode_dataProcessing_eq_iff.mpr ⟨hc, line, rfl, rfl, rfl, rfl, rfl, rfl⟩, ?_⟩
    rw [Bool.not_eq_true] at notBx notMultiply notLong notSwap notHalfReg notHalfImm notMovs notSubs4 notSubs8
    rw [Instr.wellFormed, dataProcessingClaimed_eq_earlierLine (spells_of_dataProcessing_line line), earlierLine,
      notBx, notMultiply, notLong, notSwap, notHalfReg, notHalfImm, notMovs, notSubs4, notSubs8]
    rfl
  refine iteInduction (fun line => ?_) fun notUndefined => ?_
  · exact ⟨encode_undefined_eq_iff.mpr ⟨hc, line, rfl, rfl⟩, rfl⟩
  refine iteInduction (fun line => ?_) fun notWord => ?_
  · refine ⟨encode_wordTransfer_eq_iff.mpr ⟨hc, line, rfl, rfl, rfl, rfl, rfl, rfl, rfl, rfl, rfl⟩, ?_⟩
    rw [Instr.wellFormed, undefined_line_of_wordTransfer line, Bool.eq_false_of_not_eq_true notUndefined]
    rfl
  refine iteInduction (fun line => ?_) fun notBlock => ?_
  · exact ⟨encode_blockTransfer_eq_iff.mpr ⟨hc, line, rfl, rfl, rfl, rfl, rfl, rfl, rfl⟩, rfl⟩
  refine iteInduction (fun line => ?_) fun notBranch => ?_
  · exact ⟨(encode_branchRow c _).trans (encodeBranch_eq_iff.mpr ⟨hc, line, rfl⟩), branchRow_wellFormed c _⟩
  refine iteInduction (fun line => ?_) fun notLink => ?_
  · exact ⟨(encode_linkRow c _).trans (encodeBranch_eq_iff.mpr ⟨hc, line, rfl⟩), linkRow_wellFormed c _⟩
  refine iteInduction (fun line => ?_) fun notTransfer => ?_
  · exact ⟨encode_coprocessorDataTransfer_eq_iff.mpr ⟨hc, line, rfl, rfl, rfl, rfl, rfl, rfl, rfl, rfl, rfl⟩, rfl⟩
  refine iteInduction (fun line => ?_) fun notOperation => ?_
  · exact ⟨encode_coprocessorDataOperation_eq_iff.mpr ⟨hc, line, rfl, rfl, rfl, rfl, rfl, rfl⟩, rfl⟩
  refine iteInduction (fun line => ?_) fun notRegister => ?_
  · exact ⟨encode_coprocessorRegisterTransfer_eq_iff.mpr ⟨hc, line, rfl, rfl, rfl, rfl, rfl, rfl, rfl⟩, rfl⟩
  have line := swi_line_of_no_other notDataProcessing notWord notBlock notBranch notLink notTransfer notOperation notRegister
  exact ⟨encode_swi_eq_iff.mpr ⟨hc, line, rfl⟩, rfl⟩

/-- A word whose condition field names no condition is read as such (R93). -/
theorem decodeWord_of_no_condition {w : Word} (hc : Cond.ofCode (w.extractLsb' 28 4) = none) :
    decodeWord w = .conditionReserved (w.extractLsb' 0 28) := by
  simp only [decodeWord, hc]

theorem encode_conditionReserved_eq_iff {bits : BitVec 28} {w : Word} : encode (.conditionReserved bits) = w ↔
    Cond.ofCode (w.extractLsb' 28 4) = none ∧ w.extractLsb' 0 28 = bits := by
  rw [← spells_word, encode, spells_append, Cond.ofCode_eq_none]
  rfl

/-- A word under a condition is read by the lines of R98. -/
theorem decodeWord_of_code {c : Cond} {w : Word} (hc : Cond.ofCode (w.extractLsb' 28 4) = some c) :
    decodeWord w = decodeBody c w := by
  simp only [decodeWord, hc]

theorem decodeWord_encodeBranch (c : Cond) (l : Bool) (rel : BitVec 24) :
    decodeWord (encodeBranch c l rel) = if l then linkRow c rel else branchRow c rel := by
  generalize hw : encodeBranch c l rel = w
  obtain ⟨hc, line, rfl⟩ := encodeBranch_eq_iff.mp hw
  rw [decodeWord_of_code hc]
  cases l with
  | false =>
    rw [if_neg Bool.false_ne_true] at line
    simp [decodeBody, line, maskedEq_eq_false_of_disagree line]
  | true =>
    rw [if_pos rfl] at line
    simp [decodeBody, line, maskedEq_eq_false_of_disagree line]

theorem decodeBody_of_not_earlier {c : Cond} {w : Word} (earlier : earlierLine w = false)
    (line : maskedEq w 0x0C000000#32 0x00000000#32 = true) :
    decodeBody c w = .dataProcessing c (w.getLsbD 25) (w.extractLsb' 21 4) (w.getLsbD 20) (regAt w 16) (regAt w 12)
      (w.extractLsb' 0 12) := by
  simp only [earlierLine, Bool.or_eq_false_iff] at earlier
  obtain ⟨⟨⟨⟨⟨⟨⟨notBx, notMultiply⟩, notLong⟩, notSwap⟩, notHalfReg⟩, notHalfImm⟩, notMovs⟩, notSubs4, notSubs8⟩ := earlier
  simp only [decodeBody, notBx, notMultiply, notLong, notSwap, notHalfReg, notHalfImm, notMovs, notSubs4, notSubs8, line,
    if_true, Bool.false_eq_true, if_false]

end Sys2Proof

namespace Sys2Proof.Proofs.OtherFamily

/-- Settles O2: the decoder's lines one by one (`isWordOf_decodeBody`); the words under no condition are one format. -/
theorem encodeOfDecodeIsTheWord : Obligations.EncodeOfDecodeIsTheWord := by
  intro w
  cases hc : Cond.ofCode (w.extractLsb' 28 4) with
  | some c => rw [decodeWord_of_code hc]; exact isWordOf_decodeBody hc
  | none => rw [decodeWord_of_no_condition hc]; exact ⟨encode_conditionReserved_eq_iff.mpr ⟨hc, rfl⟩, rfl⟩

/-- Settles O1: the word passes its own line's test, and no earlier line passes: the masks disagree on a fixed bit, but where the
form of `Instr.wellFormed` is needed (halfword, data processing and word transfer). The last case is the rows of B and BL. -/
theorem decodeOfEncodeIsTheRow : Obligations.DecodeOfEncodeIsTheRow := by
  intro i wf
  generalize hw : encode i = w
  cases i with
  | bx =>
    obtain ⟨hc, line, rfl⟩ := encode_bx_eq_iff.mp hw
    simp [decodeWord_of_code hc, decodeBody, line, Instr.row]
  | multiply =>
    obtain ⟨hc, line, rfl, rfl, rfl, rfl, rfl, rfl⟩ := encode_multiply_eq_iff.mp hw
    simp [decodeWord_of_code hc, decodeBody, line, maskedEq_eq_false_of_disagree line, Instr.row]
  | longMultiply =>
    obtain ⟨hc, line, rfl, rfl, rfl, rfl, rfl, rfl, rfl⟩ := encode_longMultiply_eq_iff.mp hw
    simp [decodeWord_of_code hc, decodeBody, line, maskedEq_eq_false_of_disagree line, Instr.row]
  | swap =>
    obtain ⟨hc, line, rfl, rfl, rfl, rfl⟩ := encode_swap_eq_iff.mp hw
    simp [decodeWord_of_code hc, decodeBody, line, maskedEq_eq_false_of_disagree line, Instr.row]
  | halfwordRegister =>
    obtain ⟨hc, line, rfl, rfl, rfl, rfl, rfl, rfl, rfl, rfl, rfl⟩ := encode_halfwordRegister_eq_iff.mp hw
    have halfword : (w.getLsbD 6 || w.getLsbD 5) = true := wf
    simp [decodeWord_of_code hc, decodeBody, line, maskedEq_eq_false_of_disagree line, Instr.row, halfword,
      maskedEq_eq_false_of_halfword halfword, -Bool.or_eq_true, -BitVec.getLsbD_eq_getElem]
  | halfwordImmediate =>
    obtain ⟨hc, line, rfl, rfl, rfl, rfl, rfl, rfl, rfl, rfl, rfl, rfl⟩ := encode_halfwordImmediate_eq_iff.mp hw
    have halfword : (w.getLsbD 6 || w.getLsbD 5) = true := wf
    simp [decodeWord_of_code hc, decodeBody, line, maskedEq_eq_false_of_disagree line, Instr.row, halfword,
      maskedEq_eq_false_of_halfword halfword, -Bool.or_eq_true, -BitVec.getLsbD_eq_getElem]
  | movsPcR14 =>
    obtain ⟨hc, line⟩ := encode_movsPcR14_eq_iff.mp hw
    simp [decodeWord_of_code hc, decodeBody, line, maskedEq_eq_false_of_disagree line, Instr.row]
  | subsPcR14By4 =>
    obtain ⟨hc, line⟩ := encode_subsPcR14By4_eq_iff.mp hw
    simp [decodeWord_of_code hc, decodeBody, line, maskedEq_eq_false_of_disagree line, Instr.row]
  | subsPcR14By8 =>
    obtain ⟨hc, line⟩ := encode_subsPcR14By8_eq_iff.mp hw
    simp [decodeWord_of_code hc, decodeBody, line, maskedEq_eq_false_of_disagree line, Instr.row]
  | dataProcessing =>
    obtain ⟨hc, line, rfl, rfl, rfl, rfl, rfl, rfl⟩ := encode_dataProcessing_eq_iff.mp hw
    rw [Instr.wellFormed, dataProcessingClaimed_eq_earlierLine (spells_of_dataProcessing_line line), Bool.not_eq_true'] at wf
    exact (decodeWord_of_code hc).trans (decodeBody_of_not_earlier wf line)
  | undefined =>
    obtain ⟨hc, line, rfl, rfl⟩ := encode_undefined_eq_iff.mp hw
    simp [decodeWord_of_code hc, decodeBody, line, maskedEq_eq_false_of_disagree line, Instr.row]
  | wordTransfer =>
    obtain ⟨hc, line, rfl, rfl, rfl, rfl, rfl, rfl, rfl, rfl, rfl⟩ := encode_wordTransfer_eq_iff.mp hw
    rw [Instr.wellFormed, undefined_line_of_wordTransfer line, Bool.not_eq_true'] at wf
    simp [decodeWord_of_code hc, decodeBody, line, wf, maskedEq_eq_false_of_disagree line, Instr.row]
  | blockTransfer =>
    obtain ⟨hc, line, rfl, rfl, rfl, rfl, rfl, rfl, rfl⟩ := encode_blockTransfer_eq_iff.mp hw
    simp [decodeWord_of_code hc, decodeBody, line, maskedEq_eq_false_of_disagree line, Instr.row]
  | coprocessorDataTransfer =>
    obtain ⟨hc, line, rfl, rfl, rfl, rfl, rfl, rfl, rfl, rfl, rfl⟩ := encode_coprocessorDataTransfer_eq_iff.mp hw
    simp [decodeWord_of_code hc, decodeBody, line, maskedEq_eq_false_of_disagree line, Instr.row]
  | coprocessorDataOperation =>
    obtain ⟨hc, line, rfl, rfl, rfl, rfl, rfl, rfl⟩ := encode_coprocessorDataOperation_eq_iff.mp hw
    simp [decodeWord_of_code hc, decodeBody, line, maskedEq_eq_false_of_disagree line, Instr.row]
  | coprocessorRegisterTransfer =>
    obtain ⟨hc, line, rfl, rfl, rfl, rfl, rfl, rfl, rfl⟩ := encode_coprocessorRegisterTransfer_eq_iff.mp hw
    simp [decodeWord_of_code hc, decodeBody, line, maskedEq_eq_false_of_disagree line, Instr.row]
  | swi =>
    obtain ⟨hc, line, rfl⟩ := encode_swi_eq_iff.mp hw
    simp [decodeWord_of_code hc, decodeBody, maskedEq_eq_false_of_disagree line, Instr.row]
  | conditionReserved =>
    obtain ⟨hc, rfl⟩ := encode_conditionReserved_eq_iff.mp hw
    exact decodeWord_of_no_condition hc
  | _ => subst hw; exact decodeWord_encodeBranch _ _ _

end Sys2Proof.Proofs.OtherFamily
end

section
/-! PROOFS of the words of the spec and of the branches (30_encoding.md sections 2, 3, 7; 40_control_transfer.md): B and BL under any
condition as one equation each, of which their conditional rows are the cases; BX by its target; and the condition that fails. -/

namespace Sys2Proof.Machine

/-! ### The condition (30_encoding.md R92, R94) -/

/-- Every instruction with a condition is its meaning under that condition, so a failing one leaves the advance alone (D29). -/
theorem exec_of_failed {i : Instr} {c : Cond} {s : State} (hc : instrCond i = some c) (failed : condPassed c s.cpsr = false) :
    exec i s = .next s.advance := by
  cases i with
  | conditionReserved => cases hc
  | _ => cases hc; exact whenPassed_of_failed _ failed

theorem condPassed_complements (p : Word) :
    condPassed .hi p = !condPassed .ls p ∧ condPassed .ge p = !condPassed .lt p ∧ condPassed .gt p = !condPassed .le p := by
  simp only [condPassed]
  cases Psr.n p <;> cases Psr.z p <;> cases Psr.c p <;> cases Psr.v p <;> decide

/-! ### B and BL (R130, R131) -/

theorem branch_eq (c : Cond) (rel : BitVec 24) (s : State) :
    branch c rel s =
      .next { s with pc := if condPassed c s.cpsr then s.pc + 8#32 + (rel.signExtend 32 <<< 2) else s.pc + 4#32 } := by
  rw [branch, branchTarget_eq]
  cases h : condPassed c s.cpsr with
  | true => exact whenPassed_of_passed _ h
  | false => exact whenPassed_of_failed _ h

/-- The effect of BL under a passing condition in mode `m`. -/
def State.linkedTo (s : State) (m : Mode) (rel : BitVec 24) : State :=
  { s.setPhys m.r14 (s.pc + 4#32) with pc := s.pc + 8#32 + (rel.signExtend 32 <<< 2) }

theorem branchLink_of_passed {c : Cond} {s : State} {m : Mode} (rel : BitVec 24) (hm : s.mode = some m)
    (passed : condPassed c s.cpsr = true) : branchLink c rel s = .next (s.linkedTo m rel) := by
  rw [branchLink, whenPassed_of_passed _ passed, hm, branchTarget_eq]
  rfl

theorem branchLink_eq {s : State} {m : Mode} (c : Cond) (rel : BitVec 24) (hm : s.mode = some m) :
    branchLink c rel s = .next (if condPassed c s.cpsr then s.linkedTo m rel else s.advance) := by
  cases h : condPassed c s.cpsr with
  | true => exact branchLink_of_passed rel hm h
  | false => exact whenPassed_of_failed _ h

/-! ### BX (R132) -/

theorem execBx_of_passed {c : Cond} {rn : Reg} {s : State} {m : Mode} (hm : s.mode = some m) (hrn : rn ≠ .r15)
    (passed : condPassed c s.cpsr = true) :
    execBx c rn s =
      if (s.readReg m rn).getLsbD 0 then
        .next { s with cpsr := Psr.withT s.cpsr true, pc := thumbTarget (s.readReg m rn) }
      else if wordAligned (s.readReg m rn) then
        .next { s with cpsr := Psr.withT s.cpsr false, pc := s.readReg m rn }
      else .refused .misalignedTarget := by
  rw [execBx, whenPassed_of_passed _ passed, hm]
  simp only [if_neg hrn]

/-- A word address has bit 0 clear, so BX to it goes to ARM state. -/
theorem execBx_to_arm {c : Cond} {rn : Reg} {s : State} {m : Mode} (hm : s.mode = some m) (hrn : rn ≠ .r15)
    (passed : condPassed c s.cpsr = true) (aligned : wordAligned (s.readReg m rn) = true) :
    execBx c rn s = .next { s with cpsr := Psr.withT s.cpsr false, pc := s.readReg m rn } := by
  obtain ⟨even, _⟩ := wordAligned_iff.mp aligned
  rw [execBx_of_passed hm hrn passed, even, aligned]
  rfl

/-- Clearing bit 0 of an odd address is subtracting one. -/
theorem thumbTarget_of_odd {v : Word} (odd : v.getLsbD 0 = true) : thumbTarget v = v - 1#32 := by
  have low : v.toNat % 2 = 1 := by simpa [BitVec.getLsbD, Nat.testBit_zero] using odd
  refine BitVec.eq_of_toNat_eq ?_
  rw [thumbTarget, BitVec.toNat_append, BitVec.extractLsb'_toNat, BitVec.toNat_sub]
  simp [Nat.shiftRight_eq_div_pow, Nat.shiftLeft_eq]
  omega

/-- Writing T = 0 to a status word that has it changes nothing. -/
theorem Psr.withT_of_eq {p : Word} {t : Bool} (h : Psr.t p = t) : Psr.withT p t = p := by
  refine BitVec.eq_of_getLsbD_eq fun k _ => ?_
  by_cases hk : k = 5
  · rw [hk, Psr.withT_bit5]; exact h.symm
  · exact Psr.withT_bit p t hk

@[simp] theorem State.linkedTo_cpsr (s : State) (m : Mode) (rel : BitVec 24) : (s.linkedTo m rel).cpsr = s.cpsr := rfl
@[simp] theorem State.linkedTo_link (s : State) (m : Mode) (rel : BitVec 24) :
    (s.linkedTo m rel).readReg m .r14 = s.pc + 4#32 :=
  State.phys_setPhys_self s m.r14 _

end Sys2Proof.Machine

namespace Sys2Proof.Proofs.OtherFamily

open Sys2Proof.Machine

/-- Settles O3: the words are closed terms, which the decoder evaluates. -/
theorem wordsOfTheSpecDecode : Obligations.WordsOfTheSpecDecode := by
  unfold Obligations.WordsOfTheSpecDecode
  decide

/-- Settles O4: the first eight bits of an F11 word are the condition, 101 and L (R107). -/
theorem opcodeListingOfTheBranchRows : Obligations.OpcodeListingOfTheBranchRows := by
  intro rel
  exact ⟨rfl, rfl, rfl, rfl, rfl, rfl, rfl, rfl, rfl, rfl, rfl, rfl, rfl, rfl, rfl, rfl, rfl, rfl, rfl, rfl, rfl, rfl, rfl, rfl,
    rfl, rfl, rfl, rfl, rfl, rfl⟩

/-- Settles O5: four pairs test one flag each; the others are the pairs of `condPassed_complements`. -/
theorem pairedConditionsAreComplements : Obligations.PairedConditionsAreComplements := by
  intro p
  obtain ⟨hi, ge, gt⟩ := condPassed_complements p
  exact ⟨(Bool.not_not _).symm, (Bool.not_not _).symm, (Bool.not_not _).symm, (Bool.not_not _).symm, hi, ge, gt, rfl⟩

/-- Settles O6: `exec_of_failed`. -/
theorem failedConditionOnlyAdvances : Obligations.FailedConditionOnlyAdvances := fun _ _ _ hc failed =>
  exec_of_failed hc failed

/-- Settles O7: `branch_eq`. -/
theorem branchUnderAnyCondition : Obligations.BranchUnderAnyCondition := branch_eq

/-- Settles O8: the rows are `branch_eq` at each condition. -/
theorem conditionalBranchRowsFollowTheFlags : Obligations.ConditionalBranchRowsFollowTheFlags := fun rel s =>
  ⟨branch_eq .eq rel s, branch_eq .ne rel s, branch_eq .cs rel s, branch_eq .cc rel s, branch_eq .mi rel s,
    branch_eq .pl rel s, branch_eq .vs rel s, branch_eq .vc rel s, branch_eq .hi rel s, branch_eq .ls rel s,
    branch_eq .ge rel s, branch_eq .lt rel s, branch_eq .gt rel s, branch_eq .le rel s, branch_eq .al rel s⟩

/-- Settles O9: `branchLink_of_passed`, and the advance of a failing condition. -/
theorem branchWithLinkUnderAnyCondition : Obligations.BranchWithLinkUnderAnyCondition := fun _ rel _ _ hm =>
  ⟨fun passed => branchLink_of_passed rel hm passed, fun failed => exec_of_failed rfl failed⟩

/-- Settles O10: the rows are `branchLink_eq` at each condition. -/
theorem conditionalLinkRowsFollowTheFlags : Obligations.ConditionalLinkRowsFollowTheFlags := fun rel _ _ hm =>
  ⟨branchLink_eq .eq rel hm, branchLink_eq .ne rel hm, branchLink_eq .cs rel hm, branchLink_eq .cc rel hm,
    branchLink_eq .mi rel hm, branchLink_eq .pl rel hm, branchLink_eq .vs rel hm, branchLink_eq .vc rel hm,
    branchLink_eq .hi rel hm, branchLink_eq .ls rel hm, branchLink_eq .ge rel hm, branchLink_eq .lt rel hm,
    branchLink_eq .gt rel hm, branchLink_eq .le rel hm, branchLink_eq .al rel hm⟩

/-- Settles O11: row and general form are one word and one operation by definition; R14 is written under a passing condition. -/
theorem conditionalRowsAreBAndBl : Obligations.ConditionalRowsAreBAndBl := by
  intro rel s
  refine ⟨⟨rfl, rfl⟩, ⟨rfl, rfl⟩, ⟨rfl, rfl⟩, ⟨rfl, rfl⟩, ⟨rfl, rfl⟩, ⟨rfl, rfl⟩, ⟨rfl, rfl⟩, ⟨rfl, rfl⟩, ⟨rfl, rfl⟩, ⟨rfl, rfl⟩,
    ⟨rfl, rfl⟩, ⟨rfl, rfl⟩, ⟨rfl, rfl⟩, ⟨rfl, rfl⟩, ⟨rfl, rfl⟩, ⟨rfl, rfl⟩, ⟨rfl, rfl⟩, ⟨rfl, rfl⟩, ⟨rfl, rfl⟩, ⟨rfl, rfl⟩,
    ⟨rfl, rfl⟩, ⟨rfl, rfl⟩, ⟨rfl, rfl⟩, ⟨rfl, rfl⟩, ⟨rfl, rfl⟩, ⟨rfl, rfl⟩, ⟨rfl, rfl⟩, ⟨rfl, rfl⟩, ⟨rfl, rfl⟩, ⟨rfl, rfl⟩,
    fun c t h failed => ?_⟩
  rw [exec_of_failed (i := .bl c rel) rfl failed] at h
  cases h
  rfl

/-- Settles O12: `execBx_to_arm`; of the status BX writes T alone. -/
theorem branchAndExchangeToArmState : Obligations.BranchAndExchangeToArmState := fun _ _ s _ hm hrn passed aligned =>
  ⟨Psr.withT s.cpsr false, execBx_to_arm hm hrn passed (beq_iff_eq.mpr aligned), Psr.withT_bit5 _ _,
    fun _ hk => Psr.withT_bit _ _ hk⟩

/-- Settles O13: the first branch of `execBx_of_passed`; of the status BX writes T alone. -/
theorem branchAndExchangeToThumbState : Obligations.BranchAndExchangeToThumbState := by
  intro c rn s m hm hrn passed odd
  refine ⟨Psr.withT s.cpsr true, ?_, Psr.withT_bit5 _ _, fun _ hk => Psr.withT_bit _ _ hk⟩
  have exchanged := execBx_of_passed hm hrn passed
  rw [if_pos odd, thumbTarget_of_odd odd] at exchanged
  exact exchanged

/-- Settles O14: the test for R15, and the last branch of `execBx_of_passed`: low bits 10 are even and no word address. -/
theorem branchAndExchangeRefusals : Obligations.BranchAndExchangeRefusals := by
  intro c rn s m hm passed
  constructor
  · show execBx c .r15 s = _
    rw [execBx, whenPassed_of_passed _ passed, hm]
    rfl
  · intro hrn low
    have even : (s.readReg m rn).getLsbD 0 = false := by
      have bit := congrArg (fun x => BitVec.getLsbD x 0) low
      simpa using bit
    have misaligned : wordAligned (s.readReg m rn) = false := by rw [wordAligned, low]; rfl
    have refused := execBx_of_passed hm hrn passed
    rw [even, misaligned] at refused
    exact refused

/-- Settles O15: after the BL, R14 holds A + 4, a word address, and T is 0 already (`execBx_to_arm`). -/
theorem returnFromSubroutineByBx : Obligations.ReturnFromSubroutineByBx := by
  intro c rel s t legal arm aligned passed called
  obtain ⟨m, hm⟩ := Option.isSome_iff_exists.mp legal
  cases (branchLink_of_passed rel hm passed).symm.trans called
  have link : wordAligned (s.pc + 4#32) = true := wordAligned_add (beq_iff_eq.mpr aligned) rfl
  have exchanged := execBx_to_arm (c := .al) (rn := .r14) (s := s.linkedTo m rel) hm (by decide) rfl
    (by rwa [State.linkedTo_link])
  rw [State.linkedTo_link, State.linkedTo_cpsr, Psr.withT_of_eq arm] at exchanged
  exact exchanged

end Sys2Proof.Proofs.OtherFamily
end

section
/-! PROOFS of the instructions that enter or leave an exception, and of the classes the source gives no operation
(40_control_transfer.md R133; 41_data_processing.md sections 3, 4; 42_data_transfer.md; 43_coprocessor.md; 60_exceptions.md). -/

namespace Sys2Proof.Machine

/-! ### Taking an exception (R252) -/

/-- What an entry but Reset's makes of CPSR: the control bits of R252 and R255, the rest kept. -/
theorem Exception.statusAfter_bits (e : Exception) (p : Word) :
    (e.statusAfter p).extractLsb' 8 24 = p.extractLsb' 8 24 ∧ (e.statusAfter p).getLsbD 7 = true
      ∧ (e.statusAfter p).getLsbD 6 = (e.masksFiq || Psr.f p) ∧ (e.statusAfter p).getLsbD 5 = false
      ∧ (e.statusAfter p).extractLsb' 0 5 = e.mode.mode.code :=
  ⟨e.statusAfter_upper p, e.statusAfter_i p, e.statusAfter_f p, e.statusAfter_t p, e.statusAfter_m p⟩

theorem Exception.masksFiq_or {e : Exception} (he : e ≠ .reset) (f : Bool) :
    (e.masksFiq || f) = if e = .fiq then true else f := by
  cases e <;> first | exact absurd rfl he | rfl

theorem Exception.linkOffset_eq (e : Exception) : e.linkOffset = if e = .dataAbort then 8#32 else 4#32 := by cases e <;> rfl

/-- F is set by FIQ's entry alone, Reset apart (R255). -/
theorem State.takeException_f {s : State} {e : Exception} (he : e ≠ .reset) :
    Psr.f (s.takeException e).cpsr = if e = .fiq then true else Psr.f s.cpsr := by
  rw [State.takeException_cpsr he, Exception.statusAfter_f, Exception.masksFiq_or he]

theorem State.takeException_upper {s : State} {e : Exception} (he : e ≠ .reset) :
    (s.takeException e).cpsr.extractLsb' 8 24 = s.cpsr.extractLsb' 8 24 := by
  rw [State.takeException_cpsr he, Exception.statusAfter_upper]

/-! ### SWI and the undefined codes (R133, R241) -/

theorem execSwi_in_fiq {c : Cond} {s : State} (ignored : BitVec 24) (hm : s.mode = some .fiq)
    (passed : condPassed c s.cpsr = true) : execSwi c ignored s = .refused .swiInFiqMode := by
  rw [execSwi, whenPassed_of_passed _ passed, hm]

theorem execUndefined_of_passed {c : Cond} {s : State} (high : BitVec 20) (low : BitVec 4)
    (passed : condPassed c s.cpsr = true) : execUndefined c high low s = .next (s.takeException .undefined) :=
  whenPassed_of_passed _ passed

/-! ### The exit instructions (R168, R169, R257) -/

/-- The three exit instructions are one operation, with the correction each makes. -/
theorem exec_exit {c : Cond} {s : State} {i : Instr} {k : Word} (passed : condPassed c s.cpsr = true)
    (hi : (i = .movsPcR14 c ∧ k = 0#32) ∨ (i = .subsPcR14By4 c ∧ k = 4#32) ∨ (i = .subsPcR14By8 c ∧ k = 8#32)) :
    exec i s = s.exceptionReturn k := by
  rcases hi with ⟨rfl, rfl⟩ | ⟨rfl, rfl⟩ | ⟨rfl, rfl⟩ <;> exact whenPassed_of_passed _ passed

theorem State.readReg_r14 (s : State) (m : Mode) : s.readReg m .r14 = s.phys m.r14 := rfl

theorem State.exceptionReturn_without_spsr {s : State} {m : Mode} (k : Word) (hm : s.mode = some m) (he : m.saved = none) :
    s.exceptionReturn k = .refused .noSavedStatus := by
  simp only [State.exceptionReturn, hm, he]

theorem State.exceptionReturn_of_illegal {s : State} {m : Mode} {e : ExcMode} (k : Word) (hm : s.mode = some m)
    (he : m.saved = some e) (illegal : Mode.ofCode (Psr.m (s.spsr e)) = none) :
    s.exceptionReturn k = .refused .illegalSavedMode := by
  simp only [State.exceptionReturn, hm, he, illegal]

theorem State.exceptionReturn_of_legal {s : State} {m : Mode} {e : ExcMode} (k : Word) (hm : s.mode = some m)
    (he : m.saved = some e) (legal : (Mode.ofCode (Psr.m (s.spsr e))).isSome = true) :
    s.exceptionReturn k =
      if Psr.t (s.spsr e) then .next { s with cpsr := s.spsr e, pc := thumbTarget (s.phys m.r14 - k) }
      else if wordAligned (s.phys m.r14 - k) then .next { s with cpsr := s.spsr e, pc := s.phys m.r14 - k }
      else .refused .misalignedTarget := by
  obtain ⟨_, restored⟩ := Option.isSome_iff_exists.mp legal
  simp only [State.exceptionReturn, hm, he, restored, State.readReg_r14]
  rfl

/-- The return to ARM state. -/
theorem State.exceptionReturn_to_arm {s : State} {m : Mode} {e : ExcMode} {k : Word} (hm : s.mode = some m)
    (he : m.saved = some e) (legal : (Mode.ofCode (Psr.m (s.spsr e))).isSome = true) (arm : Psr.t (s.spsr e) = false)
    (aligned : wordAligned (s.phys m.r14 - k) = true) :
    s.exceptionReturn k = .next { s with cpsr := s.spsr e, pc := s.phys m.r14 - k } := by
  rw [State.exceptionReturn_of_legal k hm he legal, arm, aligned]
  rfl

/-! ### An exception and its exit instruction (R258) -/

/-- The amount an exit instruction takes from R14, by its exception. -/
theorem link_less_correction (a : Word) {e : Exception} {k : Word} (hk : e.correction = some k) :
    a + e.linkOffset - k = if e = .undefined ∨ e = .softwareInterrupt then a + 4#32 else a := by
  cases e <;> cases hk <;> simp [Exception.linkOffset]

theorem Mode.saved_of_excMode (x : ExcMode) : x.mode.saved = some x := Mode.saved_eq_some.mpr rfl

/-- From a state a step can be in, the return with the exception's own correction succeeds. -/
theorem State.exceptionReturn_takeException {s : State} {e : Exception} {k : Word} (wf : s.wf = true) (arm : s.thumb = false)
    (he : e ≠ .reset) (hk : e.correction = some k) :
    (s.takeException e).exceptionReturn k = .next { s.takeException e with
      cpsr := s.cpsr, pc := if e = .undefined ∨ e = .softwareInterrupt then s.pc + 4#32 else s.pc } := by
  simp only [State.wf, Bool.and_eq_true] at wf
  obtain ⟨⟨legal, aligned⟩, _⟩ := wf
  have word : wordAligned s.pc = true := by rwa [State.pcAligned, arm, if_neg Bool.false_ne_true] at aligned
  have spsr := State.takeException_spsr (s := s) he
  have target := link_less_correction s.pc hk
  rw [← State.takeException_link he arm] at target
  rw [← target, ← spsr]
  refine State.exceptionReturn_to_arm (State.takeException_mode s e) (Mode.saved_of_excMode _) ?_ ?_ ?_
  · rwa [spsr]
  · rwa [spsr]
  · rw [target]
    split
    · exact wordAligned_add word rfl
    · exact word

/-! ### The fields of a second operand (30_encoding.md R99) -/

theorem fieldShift_of_plain {field : BitVec 12} (h : field.extractLsb' 5 7 = 0#7) : fieldShift field = none := if_pos h

theorem fieldShift_of_shifted {field : BitVec 12} (h : field.extractLsb' 5 7 ≠ 0#7) :
    fieldShift field = some (ShiftOp.ofField (field.extractLsb' 5 2), (field.extractLsb' 7 5).toNat) := if_neg h

theorem operand2OfField_register {field : BitVec 12} (bit4 : field.getLsbD 4 = false) (plain : field.extractLsb' 5 7 = 0#7) :
    operand2OfField false field = some (.register (fieldRm field)) := by
  rw [operand2OfField, bit4, fieldShift_of_plain plain]
  rfl

theorem operand2OfField_scaled {field : BitVec 12} (bit4 : field.getLsbD 4 = false) (shifted : field.extractLsb' 5 7 ≠ 0#7) :
    operand2OfField false field
      = some (.scaled (fieldRm field) (ShiftOp.ofField (field.extractLsb' 5 2)) (field.extractLsb' 7 5).toNat) := by
  rw [operand2OfField, bit4, fieldShift_of_shifted shifted]
  rfl

theorem operand2OfField_registerShifted {field : BitVec 12} (bit4 : field.getLsbD 4 = true) (bit7 : field.getLsbD 7 = false) :
    operand2OfField false field = some (.registerShifted (fieldRm field) (ShiftOp.ofField (field.extractLsb' 5 2))
      (Reg.ofNum (field.extractLsb' 8 4))) := by
  rw [operand2OfField, bit4, bit7]
  rfl

/-! ### Block transfer lists (R106) -/

theorem ofNum_ofNat_inj {i j : Nat} (hi : i < 16) (hj : j < 16) (h : Reg.ofNum (BitVec.ofNat 4 i) = Reg.ofNum (BitVec.ofNat 4 j)) :
    i = j := by
  have nums := congrArg (fun r => r.num.toNat) h
  simp only [Reg.num_ofNum, BitVec.toNat_ofNat] at nums
  omega

/-- A list names each of its registers once: distinct bits name distinct registers. -/
theorem listedRegisters_nodup (list : BitVec 16) : (listedRegisters list).Nodup := by
  refine List.Nodup.map_on (fun i hi j hj h => ?_) (List.nodup_range.filter _)
  exact ofNum_ofNat_inj (List.mem_range.mp (List.mem_of_mem_filter hi)) (List.mem_range.mp (List.mem_of_mem_filter hj)) h

end Sys2Proof.Machine

namespace Sys2Proof.Proofs.OtherFamily

open Sys2Proof.Machine

/-- Settles O17: SWI is the entry of its exception (`execSwi_of_passed`), and the status is that of `Exception.statusAfter_bits`. -/
theorem softwareInterruptNextState : Obligations.SoftwareInterruptNextState := by
  intro c ignored s m hm notFiq arm passed
  refine ⟨Exception.statusAfter .softwareInterrupt s.cpsr, ?_, Exception.statusAfter_bits _ _⟩
  refine (execSwi_of_passed ignored hm notFiq passed).trans ?_
  rw [State.takeException_arm (by decide) arm]
  rfl

/-- Settles O18: `execSwi_in_fiq`. -/
theorem softwareInterruptRefusedInFiqMode : Obligations.SoftwareInterruptRefusedInFiqMode := fun _ ignored _ hm passed =>
  execSwi_in_fiq ignored hm passed

/-- Settles O19: the undefined codes are the entry of their exception, and the status is that of `Exception.statusAfter_bits`. -/
theorem undefinedCodeTrapNextState : Obligations.UndefinedCodeTrapNextState := by
  intro c high low s arm passed
  refine ⟨Exception.statusAfter .undefined s.cpsr, ?_, Exception.statusAfter_bits _ _⟩
  refine (execUndefined_of_passed high low passed).trans ?_
  rw [State.takeException_arm (by decide) arm]
  rfl

/-- Settles O20: the return of `exec_exit`, by the T bit of the SPSR. -/
theorem exitInstructionNextState : Obligations.ExitInstructionNextState := by
  intro c s m e i k hm he passed legal hi
  rw [exec_exit passed hi]
  refine ⟨fun arm aligned => State.exceptionReturn_to_arm hm he legal arm (beq_iff_eq.mpr aligned), fun thumb => ?_⟩
  rw [State.exceptionReturn_of_legal k hm he legal, Psr.t, thumb, ← thumbTarget_eq_and]
  rfl

/-- Settles O21: the refusals of the return (`exec_exit`), in the order of R168. -/
theorem exitInstructionRefusals : Obligations.ExitInstructionRefusals := by
  intro c s m i k hm passed hi
  rw [exec_exit passed hi]
  refine ⟨fun none => State.exceptionReturn_without_spsr k hm (Mode.saved_eq_none.mpr none),
    fun e he => ⟨State.exceptionReturn_of_illegal k hm he, fun legal arm misaligned => ?_⟩⟩
  have misaligned : wordAligned (s.phys m.r14 - k) = false := beq_eq_false_iff_ne.mpr misaligned
  rw [State.exceptionReturn_of_legal k hm he legal, Psr.t, arm, misaligned]
  rfl

/-- Settles O22: the return of `State.exceptionReturn_takeException`; an entry writes R14 and the SPSR of the mode entered alone. -/
theorem exitUndoesExceptionEntry : Obligations.ExitUndoesExceptionEntry := by
  intro s e i wf arm hi
  obtain ⟨k, he, hk, exits⟩ : ∃ k, e ≠ .reset ∧ e.correction = some k ∧
      exec i (s.takeException e) = (s.takeException e).exceptionReturn k := by
    rcases hi with ⟨rfl | rfl, rfl⟩ | ⟨rfl | rfl | rfl, rfl⟩ | ⟨rfl, rfl⟩ <;> exact ⟨_, by decide, rfl, rfl⟩
  rw [exits, State.exceptionReturn_takeException wf arm he hk]
  exact ⟨_, rfl, rfl, rfl, fun p hp => State.takeException_phys_ne (p := p) he hp, State.takeException_mem s e,
    fun x hx => by cases x <;> exact State.takeException_spsr_ne he hx⟩

/-- Settles O23: each class is a refusal under its condition; the operand is read off the field's layout bits. -/
theorem dataProcessingFamilyAdvancesOrIsRefused : Obligations.DataProcessingFamilyAdvancesOrIsRefused := by
  intro c u a sf imm opcode rn rd rs rm operand2 s
  exact ⟨exec_of_failed rfl, whenPassed_of_passed _, exec_of_failed rfl, whenPassed_of_passed _, exec_of_failed rfl,
    whenPassed_of_passed _, rfl, operand2OfField_scaled, operand2OfField_register, operand2OfField_registerShifted,
    ⟨rfl, rfl, rfl, rfl⟩, rfl, rfl, rfl⟩

/-- Settles O24: each class is a refusal under its condition; a list is read bit by bit (`mem_listedRegisters`). -/
theorem transferFamilyAdvancesOrIsRefused : Obligations.TransferFamilyAdvancesOrIsRefused := by
  intro c i p u b w l sb h rn rd rm hi lo offset list s
  exact ⟨exec_of_failed rfl, whenPassed_of_passed _, exec_of_failed rfl, whenPassed_of_passed _, exec_of_failed rfl,
    whenPassed_of_passed _, exec_of_failed rfl, whenPassed_of_passed _, exec_of_failed rfl, whenPassed_of_passed _,
    rfl, rfl, rfl, rfl, rfl, mem_listedRegisters list rn, listedRegisters_nodup list⟩

/-- Settles O25: each class is a refusal under its condition. -/
theorem coprocessorFamilyAdvancesOrIsRefused : Obligations.CoprocessorFamilyAdvancesOrIsRefused := by
  intro c p u n w l rn rd opc crn crd num crm cp opc3 offset s
  exact ⟨exec_of_failed rfl, whenPassed_of_passed _, exec_of_failed rfl, whenPassed_of_passed _, exec_of_failed rfl,
    whenPassed_of_passed _⟩

/-- Settles O26: 0b1111 names no condition, so the word is read as the reserved format (`decodeWord_of_no_condition`). -/
theorem reservedConditionIsRefused : Obligations.ReservedConditionIsRefused := by
  intro w s reserved
  refine ⟨?_, fun _ => rfl⟩
  rw [decodeWord_of_no_condition (Cond.ofCode_eq_none.mpr reserved)]
  rfl

end Sys2Proof.Proofs.OtherFamily
end

section
/-! PROOFS of exception entry and of the instruction boundary (60_exceptions.md sections 1 to 4; 20_memory.md section 3;
70_reset_and_hazards.md section 1): what an entry leaves, which exception is due, and what a quiet boundary runs. -/

namespace Sys2Proof.Machine

/-! ### What is due (R250, R251) -/

/-- The raised exception that no raised one outranks is due. -/
theorem State.due_of_first {s : State} (legal : s.modeLegal = true) (arm : s.thumb = false) {d : Exception}
    (raised : s.raises d = true) (first : ∀ x, s.raises x = true → d.priority ≤ x.priority) : s.due = .take d := by
  obtain ⟨m, hm⟩ := Option.isSome_iff_exists.mp legal
  have outranked (x : Exception) (h : x.priority < d.priority) : s.raises x = false :=
    Bool.eq_false_iff.mpr fun hx => absurd (first x hx) (by omega)
  cases d with
  | reset =>
    have reset : s.inputs.reset = true := raised
    simp [State.due, hm, arm, reset]
  | fiq =>
    have noReset : s.inputs.reset = false := outranked .reset (by decide)
    have fiq : (s.inputs.fiq && !Psr.f s.cpsr) = true := raised
    simp only [State.due, hm, arm, noReset, fiq, Bool.false_eq_true, if_false, if_true]
  | irq =>
    have noReset : s.inputs.reset = false := outranked .reset (by decide)
    have noFiq : (s.inputs.fiq && !Psr.f s.cpsr) = false := outranked .fiq (by decide)
    have irq : (s.inputs.irq && !Psr.i s.cpsr) = true := raised
    simp only [State.due, hm, arm, noReset, noFiq, irq, Bool.false_eq_true, if_false, if_true]
  | prefetchAbort =>
    have noReset : s.inputs.reset = false := outranked .reset (by decide)
    have noFiq : (s.inputs.fiq && !Psr.f s.cpsr) = false := outranked .fiq (by decide)
    have noIrq : (s.inputs.irq && !Psr.i s.cpsr) = false := outranked .irq (by decide)
    have abort : s.abortReq s.pc .fetch = true := raised
    simp only [State.due, hm, arm, noReset, noFiq, noIrq, abort, Bool.false_eq_true, if_false, if_true]
  | dataAbort => cases raised
  | undefined => cases raised
  | softwareInterrupt => cases raised

/-- Of the raised exceptions one is first: priorities are natural numbers. -/
theorem State.exists_first_raised {s : State} {e : Exception} (raised : s.raises e = true) :
    ∃ d, s.raises d = true ∧ ∀ x, s.raises x = true → d.priority ≤ x.priority := by
  obtain ⟨d, hd, first⟩ := (measure Exception.priority).wf.has_min {x | s.raises x = true} ⟨e, raised⟩
  exact ⟨d, hd, fun x hx => Nat.le_of_not_lt (first x hx)⟩

/-- A step at whose boundary an exception is due takes it. -/
theorem step_of_take {s : State} {e : Exception} (due : s.sample.due = .take e) : step s = .next (s.sample.takeException e) := by
  simp only [step, due]

theorem step_of_stop {s : State} {why : Refusal} (due : s.sample.due = .stop why) : step s = .refused why := by
  simp only [step, due]

theorem step_of_run {s : State} {i : Instr} (due : s.sample.due = .run i) : step s = exec i s.sample := by
  simp only [step, due]

/-! ### The fields an entry leaves -/

theorem State.takeException_frame {s : State} {e : Exception} (he : e ≠ .reset) :
    let t := s.takeException e
    t.spsr e.mode = s.cpsr ∧ (∀ x, x ≠ e.mode → t.spsr x = s.spsr x)
      ∧ t.mode = some e.mode.mode ∧ t.thumb = false ∧ Psr.i t.cpsr = true
      ∧ Psr.f t.cpsr = (if e = .fiq then true else Psr.f s.cpsr)
      ∧ t.cpsr.extractLsb' 8 24 = s.cpsr.extractLsb' 8 24 ∧ t.pc = e.vector :=
  ⟨State.takeException_spsr he, fun _ => State.takeException_spsr_ne he, State.takeException_mode s e,
    State.takeException_thumb s e, State.takeException_i s e, State.takeException_f he, State.takeException_upper he,
    State.takeException_pc s e⟩

theorem State.takeException_draws {s : State} {e : Exception} (he : e ≠ .reset) (arm : s.thumb = false) :
    (s.takeException e).draws = s.draws := by
  rw [State.takeException_arm he arm, State.enter_draws]

/-- Every entry sets the mode, its code, and goes to the vector. -/
theorem State.takeException_enters (s : State) (e : Exception) :
    (s.takeException e).mode = some e.mode.mode ∧ Psr.m (s.takeException e).cpsr = e.mode.mode.code
      ∧ (s.takeException e).pc = e.vector :=
  ⟨State.takeException_mode s e, State.takeException_m s e, State.takeException_pc s e⟩

/-! ### The fetch (20_memory.md R63, R69) -/

/-- Four bytes at an aligned pc are fetched as one word. -/
theorem State.fetchWord_of_lookup {s : State} (aligned : s.pc.extractLsb' 0 2 = 0#2) {bs : List Byte} (four : bs.length = 4)
    (placed : ∀ k (hk : k < bs.length), Memory.lookup (s.pc + BitVec.ofNat 32 k).toNat s.mem = some bs[k]) :
    s.fetchWord = .ok (joinBytes Config.byteOrder bs) := by
  have multiple : Width.aligned .word s.pc = true :=
    beq_iff_eq.mpr (wordAligned_iff_toNat.mp (beq_iff_eq.mpr aligned))
  have loaded := Memory.loadBytes_of_lookup s.mem bs s.pc placed
  rw [four] at loaded
  simp only [State.fetchWord, State.memRead, multiple, if_true, Width.bytes, loaded]

/-- A quiet boundary runs the word fetched. -/
theorem State.due_of_fetchWord {s : State} {w : Word} (quiet : s.quiet = true) (fetched : s.fetchWord = .ok w) :
    s.due = .run (decodeWord w) := by
  rw [State.due_of_quiet quiet, fetched]

/-- Placing a word changes memory alone, before the inputs are sampled or after. -/
theorem State.sample_withFetchWord (s : State) (nbits w : Nat) :
    (s.withFetchWord nbits w).sample = s.sample.withFetchWord nbits w := by
  obtain ⟨_, _, _, _, _, _, _, _, _, _, upcoming, _⟩ := s
  cases upcoming <;> rfl

/-- The word placed is the word fetched. -/
theorem State.fetchWord_withFetchWord {s : State} (aligned : s.pc.extractLsb' 0 2 = 0#2) (w : Nat) :
    (s.withFetchWord 32 w).fetchWord = .ok (BitVec.ofNat 32 (w % 2 ^ 32)) := by
  have four : (splitBytes Config.byteOrder 4 (BitVec.ofNat 32 (w % 2 ^ 32))).length = 4 := splitLittle_length 4 _
  rw [← joinBytes_splitBytes Config.byteOrder (BitVec.ofNat 32 (w % 2 ^ 32))]
  exact State.fetchWord_of_lookup (s := s.withFetchWord 32 w) aligned four
    fun k hk => Memory.lookup_storeBytes _ s.pc s.mem (by rw [four]; decide) k hk

theorem State.due_withFetchWord {s : State} (quiet : s.sample.quiet = true) (aligned : s.pc.extractLsb' 0 2 = 0#2) {w : Nat}
    (hw : w < 2 ^ 32) : (s.withFetchWord 32 w).sample.due = .run (decodeWord (BitVec.ofNat 32 w)) := by
  rw [State.sample_withFetchWord]
  have aligned : s.sample.pc.extractLsb' 0 2 = 0#2 := by rwa [State.sample_pc]
  have fetched := State.fetchWord_withFetchWord aligned w
  rw [Nat.mod_eq_of_lt hw] at fetched
  exact State.due_of_fetchWord quiet fetched

/-! ### The branch to itself (R295) -/

theorem decodeWord_branchToItself : decodeWord 0xEAFFFFFE#32 = .bal 0xFFFFFE#24 := by decide

theorem exec_branchToItself (s : State) : exec (.bal 0xFFFFFE#24) s = .next s := by
  have back : s.pc + 8#32 + (0xFFFFFE#24).signExtend 32 <<< 2 = s.pc := by
    rw [BitVec.add_assoc]
    exact BitVec.add_zero s.pc
  refine (branch_eq .al 0xFFFFFE#24 s).trans ?_
  rw [show condPassed .al s.cpsr = true from rfl, if_pos rfl, back]

theorem runUntil_of_halt {halt : Halt} {s : State} (h : halt s = true) (n : Nat) : runUntil halt n s = .next s := by
  cases n with
  | zero => rfl
  | succ n => rw [runUntil, if_pos h]

end Sys2Proof.Machine

namespace Sys2Proof.Proofs.OtherFamily

open Sys2Proof.Machine

/-- Settles O29: the link value (`State.takeException_link`) and the frame of an entry. -/
theorem exceptionEntryTransition : Obligations.ExceptionEntryTransition := by
  intro s e he arm
  obtain ⟨spsr, spsrs, mode, thumb, i, f, upper, pc⟩ := State.takeException_frame (s := s) he
  exact ⟨e.linkOffset_eq ▸ State.takeException_link he arm, fun _ => State.takeException_phys_ne he, spsr, spsrs, mode, thumb, i,
    f, upper, pc, State.takeException_mem s e, State.takeException_inputs s e, State.takeException_upcoming s e,
    State.takeException_draws he arm⟩

/-- Settles O30: the table of modes and vectors, through `State.takeException_enters`. -/
theorem exceptionsEnterTheirModeAndVector : Obligations.ExceptionsEnterTheirModeAndVector := by
  intro s
  refine ⟨s.takeException_enters .reset, s.takeException_enters .undefined, s.takeException_enters .softwareInterrupt,
    s.takeException_enters .prefetchAbort, s.takeException_enters .dataAbort, s.takeException_enters .irq,
    s.takeException_enters .fiq, fun e => ⟨?_, State.takeException_thumb s e⟩⟩
  rw [State.takeException_pc]
  cases e <;> decide

/-- Settles O31: Reset ranks first, so it is due where it is asserted (`State.due_of_first`). -/
theorem resetTakenInARun : Obligations.ResetTakenInARun := by
  intro s asserted legal arm
  have due : s.sample.due = .take .reset :=
    State.due_of_first (by simpa using legal) (by simpa using arm) asserted fun x _ => by cases x <;> decide
  exact ⟨_, step_of_take due, State.takeException_mode _ .reset, State.takeException_thumb _ .reset,
    State.takeException_i _ .reset, Exception.statusAfter_f .reset _, State.takeException_pc _ .reset,
    (State.takeException_mem _ .reset).trans s.sample_mem⟩

/-- Settles O32: the reset state is a closed term. -/
theorem stateAfterReset : Obligations.StateAfterReset := ⟨rfl, rfl, rfl, rfl, rfl⟩

/-- Settles O36: among the raised exceptions there is a first, and it is due. -/
theorem highestPriorityIsTakenFirst : Obligations.HighestPriorityIsTakenFirst := by
  intro s legal arm e raised
  obtain ⟨d, raisedD, first⟩ := State.exists_first_raised raised
  exact ⟨d, State.due_of_first legal arm raisedD first, raisedD, first⟩

/-- Settles O37: an IRQ entry keeps F, and an FIQ entry sets both masks. -/
theorem fiqInterruptsIrqButNotConversely : Obligations.FiqInterruptsIrqButNotConversely := by
  intro s
  constructor
  · intro unmasked noReset asserted
    refine State.due_fiq ?_ (State.takeException_thumb s .irq) ?_ ?_ ?_
    · rw [State.modeLegal, State.takeException_mode]; rfl
    · rwa [State.takeException_inputs]
    · rwa [State.takeException_inputs]
    · exact (State.takeException_f (by decide)).trans unmasked
  · exact fun _ => ⟨State.due_ne_irq_of_masked (State.takeException_i s .fiq),
      State.due_ne_fiq_of_masked (State.takeException_f (e := .fiq) (by decide))⟩

/-- Settles O38: no request outranks the aborted fetch, so its entry is the step. -/
theorem prefetchAbortTakenInPlaceOfTheInstruction : Obligations.PrefetchAbortTakenInPlaceOfTheInstruction := by
  intro s noReset legal arm noFiq noIrq abort
  have due : s.sample.due = .take .prefetchAbort := by
    refine State.due_of_first (by simpa using legal) (by simpa using arm) (by simpa [State.raises] using abort) fun x raised => ?_
    cases x with
    | reset => exact absurd raised (by simp [State.raises, noReset])
    | fiq => exact absurd raised (by rcases noFiq with h | h <;> simp [State.raises, h])
    | irq => exact absurd raised (by rcases noIrq with h | h <;> simp [State.raises, h])
    | dataAbort => cases raised
    | _ => decide
  refine ⟨Exception.statusAfter .prefetchAbort s.cpsr, (step_of_take due).trans ?_, Exception.statusAfter_upper _ _,
    Exception.statusAfter_m _ _, Exception.statusAfter_i _ _, Exception.statusAfter_f _ _, Exception.statusAfter_t _ _⟩
  rw [State.takeException_arm (by decide) (by simpa using arm), State.enter, State.sample_pc, State.sample_cpsr]
  rfl

/-- Settles O39: THUMB state has nothing due (`State.due_of_thumb`), and the frame of an entry does not depend on it. -/
theorem interruptFromThumbState : Obligations.InterruptFromThumbState := by
  intro s thumb
  refine ⟨fun legal => step_of_stop (State.due_of_thumb (by simpa using legal) (by simpa using thumb)), fun e he => ?_⟩
  obtain ⟨spsr, spsrs, mode, arm, i, f, upper, pc⟩ := State.takeException_frame (s := s) he
  exact ⟨spsr, spsrs, mode, arm, i, f, upper, pc, fun _ => State.takeException_phys_ne he, State.takeException_mem s e,
    State.takeException_inputs s e, State.takeException_upcoming s e⟩

/-- Settles O40: nothing is due in such a state (`State.due_of_illegalMode`, `State.due_of_thumb`). -/
theorem statesWithoutAStep : Obligations.StatesWithoutAStep := fun s =>
  ⟨fun illegal => step_of_stop (State.due_of_illegalMode (s.sample_mode.trans illegal)),
    fun legal thumb => step_of_stop (State.due_of_thumb (s.sample_modeLegal.trans legal) (s.sample_thumb.trans thumb))⟩

/-- Settles O41: the four bytes are fetched as the word they decode from (`State.fetchWord_of_lookup`). -/
theorem stepRunsTheDecodedInstruction : Obligations.StepRunsTheDecodedInstruction := by
  intro s b0 b1 b2 b3 i quiet aligned at0 at1 at2 at3 decoded
  have fetched : s.sample.fetchWord = .ok (joinBytes Config.byteOrder [b0, b1, b2, b3]) := by
    refine State.fetchWord_of_lookup (by rwa [State.sample_pc]) rfl fun k hk => ?_
    rw [State.sample_pc, State.sample_mem]
    match k, hk with
    | 0, _ => rw [BitVec.add_zero]; exact at0
    | 1, _ => exact at1
    | 2, _ => exact at2
    | 3, _ => exact at3
  cases decoded
  exact step_of_run (State.due_of_fetchWord quiet fetched)

/-- Settles O42: the word placed is fetched back (`State.fetchWord_withFetchWord`), and placing it leaves the boundary quiet. -/
theorem placedWordRunsNext : Obligations.PlacedWordRunsNext := by
  intro s w quiet aligned hw
  refine ⟨?_, step_of_run (State.due_withFetchWord quiet aligned hw)⟩
  rw [decodeTableWord_eq, Nat.mod_eq_of_lt hw]

/-- Settles O43: the word is `bal` by two words back, which is the instruction due and leaves the state as it is. -/
theorem branchToItselfIsAFixedPoint : Obligations.BranchToItselfIsAFixedPoint := by
  intro s quiet aligned
  have due := State.due_withFetchWord quiet aligned (w := 0xEAFFFFFE) (by decide)
  rw [decodeWord_branchToItself] at due
  have halts : branchToItself (s.withFetchWord 32 0xEAFFFFFE) = true := by
    simp only [branchToItself, due, exec_branchToItself, State.sample_pc, beq_self_eq_true, isBranchRow, Bool.and_self]
  exact ⟨(step_of_run due).trans (exec_branchToItself _), halts, runUntil_of_halt halts⟩

/-- Settles O60: the aborted read is the entry of Data abort. -/
theorem dataAbortOnAnAbortedRead : Obligations.DataAbortOnAnAbortedRead := by
  intro s w addr arm aligned abort
  refine ⟨s.takeException .dataAbort, ?_, State.takeException_link (e := .dataAbort) (by decide) arm,
    State.takeException_spsr (e := .dataAbort) (by decide), State.takeException_mode s .dataAbort,
    State.takeException_pc s .dataAbort, State.takeException_mem s .dataAbort,
    fun p hp => State.takeException_phys_ne (e := .dataAbort) (by decide) hp⟩
  rw [State.dataRead, aligned, abort]
  rfl

end Sys2Proof.Proofs.OtherFamily
end

section
/-! PROOFS of what every step keeps (10_state.md; 20_memory.md section 8; 60_exceptions.md section 5), read off the one list of effects
a step can have (`step_effect`): memory, the well-formed states, and which register or status word can change and how. -/

namespace Sys2Proof.Machine

/-! ### Memory -/

/-- No effect writes memory. -/
theorem Effect.mem_eq {i : Instr} {s t : State} (h : Effect i s t) : t.mem = s.mem := by
  cases h with
  | passedOver _ _ _ ht => subst ht; rfl
  | branched _ ht => subst ht; rfl
  | linked _ _ _ ht => subst ht; rfl
  | exchanged _ _ _ _ _ ht => subst ht; rfl
  | called _ _ _ _ _ ht => subst ht; exact State.takeException_mem _ _
  | trapped _ _ _ _ _ ht => subst ht; exact State.takeException_mem _ _
  | returned _ _ _ _ _ _ _ _ ht => subst ht; rfl

theorem step_mem_eq {s t : State} (h : step s = .next t) : t.mem = s.mem := by
  rcases step_effect h with ⟨e, _, rfl⟩ | ⟨i, _, effect⟩
  · rw [State.takeException_mem, State.sample_mem]
  · rw [effect.mem_eq, State.sample_mem]

/-! ### The mode -/

theorem State.takeException_modeLegal (s : State) (e : Exception) : (s.takeException e).modeLegal = true := by
  rw [State.modeLegal, State.takeException_mode]
  rfl

/-- An exit instruction restores no illegal mode code (R35, R168). -/
theorem Effect.modeLegal {i : Instr} {s t : State} (h : Effect i s t) (legal : s.modeLegal = true) : t.modeLegal = true := by
  cases h with
  | passedOver _ _ _ ht => subst ht; exact legal
  | branched _ ht => subst ht; exact legal
  | linked _ _ _ ht => subst ht; exact legal
  | exchanged _ _ thumb target _ ht => subst ht; rwa [State.modeLegal, State.mode_withT]
  | called _ _ _ _ _ ht => subst ht; exact State.takeException_modeLegal _ _
  | trapped _ _ _ _ _ ht => subst ht; exact State.takeException_modeLegal _ _
  | returned _ _ _ _ _ _ _ restored ht => subst ht; exact restored

theorem step_keeps_modeLegal {s t : State} (legal : s.modeLegal = true) (h : step s = .next t) : t.modeLegal = true := by
  rcases step_effect h with ⟨e, _, rfl⟩ | ⟨i, _, effect⟩
  · exact State.takeException_modeLegal _ e
  · exact effect.modeLegal (by rwa [State.sample_modeLegal])

theorem State.wf_iff {s : State} :
    s.wf = true ↔ s.modeLegal = true ∧ s.pcAligned = true ∧ Memory.wf s.mem = true := by
  rw [State.wf, Bool.and_eq_true, Bool.and_eq_true, and_assoc]

theorem State.initial_iff {s : State} :
    s.initial = true ↔ s.modeLegal = true ∧ s.thumb = false ∧ wordAligned s.pc = true := by
  rw [State.initial, Bool.and_eq_true, Bool.and_eq_true, and_assoc, Bool.not_eq_true']

/-! ### The registers -/

/-- What an entry but Reset's leaves different. -/
theorem State.takeException_changes {s : State} {e : Exception} (he : e ≠ .reset) :
    (∀ p, (s.takeException e).phys p ≠ s.phys p → p = e.mode.mode.r14)
      ∧ ∀ x, (s.takeException e).spsr x ≠ s.spsr x → x = e.mode ∧ (s.takeException e).spsr x = s.cpsr := by
  refine ⟨fun p changed => by_contra fun hp => changed (State.takeException_phys_ne he hp), fun x changed => ?_⟩
  have hx : x = e.mode := by_contra fun hx => changed (State.takeException_spsr_ne he hx)
  exact ⟨hx, hx ▸ State.takeException_spsr he⟩

/-- An instruction keeps every register and SPSR, or links in R14 of the current mode, or takes an exception other than Reset. -/
theorem Effect.registers_kept_or_written {i : Instr} {s t : State} (h : Effect i s t) :
    ((∀ x, t.spsr x = s.spsr x) ∧ ∀ p, t.phys p ≠ s.phys p → ∃ m, s.mode = some m ∧ p = m.r14 ∧ t.cpsr = s.cpsr)
      ∨ ∃ e, e ≠ .reset ∧ t = s.takeException e := by
  cases h with
  | passedOver _ _ _ ht => subst ht; exact .inl ⟨fun _ => rfl, fun _ changed => absurd rfl changed⟩
  | branched _ ht => subst ht; exact .inl ⟨fun x => by cases x <;> rfl, fun _ changed => absurd rfl changed⟩
  | linked m _ hm ht =>
    subst ht
    refine .inl ⟨fun x => by cases x <;> rfl, fun p changed => ⟨m, hm, ?_, rfl⟩⟩
    exact by_contra fun hp => changed (State.phys_setPhys_ne s _ hp)
  | exchanged _ _ _ _ _ ht => subst ht; exact .inl ⟨fun x => by cases x <;> rfl, fun _ changed => absurd rfl changed⟩
  | called _ _ _ _ _ ht => exact .inr ⟨_, by decide, ht⟩
  | trapped _ _ _ _ _ ht => exact .inr ⟨_, by decide, ht⟩
  | returned _ _ _ _ _ _ _ _ ht => subst ht; exact .inl ⟨fun x => by cases x <;> rfl, fun _ changed => absurd rfl changed⟩

/-- The same of a step without Reset. -/
theorem step_registers_kept_or_written {s t : State} (h : step s = .next t) (noReset : s.sample.inputs.reset = false) :
    ((∀ x, t.spsr x = s.spsr x) ∧ ∀ p, t.phys p ≠ s.phys p → ∃ m, s.mode = some m ∧ p = m.r14 ∧ t.cpsr = s.cpsr)
      ∨ ∃ e, e ≠ .reset ∧ t = s.sample.takeException e := by
  rcases step_effect h with ⟨e, due, ht⟩ | ⟨i, _, effect⟩
  · refine .inr ⟨e, ?_, ht⟩
    rintro rfl
    obtain ⟨raised, _⟩ := State.due_take due
    exact absurd (noReset.symm.trans raised) (by decide)
  · simpa using effect.registers_kept_or_written

/-! ### The status word -/

/-- The writers of CPSR among the instructions. -/
theorem Effect.status_kept_or_written {i : Instr} {s t : State} (h : Effect i s t) :
    t.cpsr = s.cpsr ∨ (∃ e, t = s.takeException e)
      ∨ (∃ c rn, i = .bx c rn ∧ ∀ k, k ≠ 5 → t.cpsr.getLsbD k = s.cpsr.getLsbD k)
      ∨ ∃ m e, (exitCorrection i).isSome = true ∧ s.mode = some m ∧ m.saved = some e ∧ t.cpsr = s.spsr e := by
  cases h with
  | passedOver _ _ _ ht => subst ht; exact .inl rfl
  | branched _ ht => subst ht; exact .inl rfl
  | linked _ _ _ ht => subst ht; exact .inl rfl
  | exchanged c rn thumb _ hi ht =>
    subst ht
    exact .inr (.inr (.inl ⟨c, rn, hi, fun _ hk => Psr.withT_bit s.cpsr thumb hk⟩))
  | called _ _ _ _ _ ht => exact .inr (.inl ⟨_, ht⟩)
  | trapped _ _ _ _ _ ht => exact .inr (.inl ⟨_, ht⟩)
  | returned _ m e _ hi hm he _ ht =>
    subst ht
    exact .inr (.inr (.inr ⟨m, e, by rw [hi]; rfl, hm, he, rfl⟩))

theorem State.takeException_sample_upper {s : State} {e : Exception} (he : e ≠ .reset) :
    (s.sample.takeException e).cpsr.extractLsb' 8 24 = s.cpsr.extractLsb' 8 24 := by
  rw [State.takeException_upper he, State.sample_cpsr]

end Sys2Proof.Machine

namespace Sys2Proof.Proofs.OtherFamily

open Sys2Proof.Machine

/-- Settles O47: no effect writes memory (`step_mem_eq`). -/
theorem memoryIsNeverWritten : Obligations.MemoryIsNeverWritten := fun _ _ h =>
  ⟨step_mem_eq h, fun _ => by rw [step_mem_eq h]⟩

/-- Settles O45: each of the three properties is kept on its own. -/
theorem stepKeepsWellFormedStates : Obligations.StepKeepsWellFormedStates := by
  intro s t wf h
  obtain ⟨legal, aligned, canonical⟩ := State.wf_iff.mp wf
  exact State.wf_iff.mpr ⟨step_keeps_modeLegal legal h, step_keeps_pcAligned aligned h, step_mem_eq h ▸ canonical⟩

/-- Settles O46: the reset state is a closed term, and Reset enters Supervisor mode, ARM state and the vector. -/
theorem resetIsWellFormed : Obligations.ResetIsWellFormed := by
  refine ⟨rfl, rfl, rfl, fun s => ?_, fun s => ?_, fun s initial canonical => ?_⟩
  · refine State.initial_iff.mpr ⟨State.takeException_modeLegal s _, State.takeException_thumb s _, ?_⟩
    rw [State.takeException_pc]
    exact Exception.vector_aligned _
  · rw [State.initial_iff, wordAligned_iff_toNat]
    rfl
  · obtain ⟨legal, arm, word⟩ := State.initial_iff.mp initial
    exact State.wf_iff.mpr ⟨legal, State.pcAligned_of_arm arm word, canonical⟩

/-- Settles O48: the writers of the registers (`step_registers_kept_or_written`), with what an entry changes. -/
theorem registerFrameOfAStep : Obligations.RegisterFrameOfAStep := by
  intro s t h noReset
  rcases step_registers_kept_or_written h noReset with ⟨spsrs, linked⟩ | ⟨e, he, rfl⟩
  · exact ⟨fun p changed => .inl (linked p changed), fun x changed => absurd (spsrs x) changed⟩
  · obtain ⟨registers, spsrs⟩ := State.takeException_changes (s := s.sample) he
    refine ⟨fun p changed => .inr ⟨e, he, rfl, registers p ?_⟩, fun x changed => ?_⟩
    · rwa [State.sample_phys]
    · obtain ⟨hx, saved⟩ := spsrs x (by rwa [State.sample_spsr])
      exact ⟨e, he, rfl, hx, saved.trans s.sample_cpsr⟩

/-- Settles O49: the writers of CPSR among the instructions (`Effect.status_kept_or_written`), and the entries. -/
theorem statusChangesOnlyByItsWriters : Obligations.StatusChangesOnlyByItsWriters := by
  intro s t h changed
  rcases step_effect h with ⟨e, _, ht⟩ | ⟨i, due, effect⟩
  · exact .inl ⟨e, ht, fun he => ht ▸ State.takeException_sample_upper he⟩
  · rcases effect.status_kept_or_written with kept | ⟨e, ht⟩ | ⟨c, rn, rfl, bits⟩ | ⟨m, e, exits, hm, he, restored⟩
    · exact absurd (kept.trans s.sample_cpsr) changed
    · exact .inl ⟨e, ht, fun he => ht ▸ State.takeException_sample_upper he⟩
    · exact .inr (.inl ⟨c, rn, due, fun k hk => (bits k hk).trans (by rw [State.sample_cpsr])⟩)
    · rw [State.sample_mode] at hm
      rw [State.sample_spsr] at restored
      exact .inr (.inr ⟨i, m, e, due, exits, hm, he, restored⟩)

end Sys2Proof.Proofs.OtherFamily
end

section
/-! PROOFS of the register banks, the shifts, the addressing modes and memory accesses (10_state.md section 1; 41_data_processing.md
section 2; 42_data_transfer.md section 1; 20_memory.md sections 2, 3): the operations the meanings are made of. -/

namespace Sys2Proof.Machine

/-! ### Registers as an instruction names them (R23) -/

/-- Every number but 15 names a general register. -/
theorem bank_general {r : Reg} (m : Mode) (hr : r ≠ .r15) : ∃ p, bank m r = .general p := by
  cases r with
  | r15 => exact absurd rfl hr
  | _ => exact ⟨_, rfl⟩

theorem State.readReg_of_bank {s : State} {m : Mode} {r : Reg} {p : PhysReg} (h : bank m r = .general p) :
    s.readReg m r = s.phys p := by
  rw [State.readReg, h]

theorem State.writeReg_of_bank {s : State} {m : Mode} {r : Reg} {p : PhysReg} (v : Word) (h : bank m r = .general p) :
    s.writeReg m r v = s.setPhys p v := by
  rw [State.writeReg, h]

/-- Read after write, on the physical registers named. -/
theorem State.readReg_writeReg (s : State) {m m' : Mode} {r r' : Reg} (v : Word) (hr : r ≠ .r15) (hr' : r' ≠ .r15) :
    (s.writeReg m r v).readReg m' r' = if bank m r = bank m' r' then v else s.readReg m' r' := by
  obtain ⟨p, hp⟩ := bank_general m hr
  obtain ⟨q, hq⟩ := bank_general m' hr'
  rw [State.writeReg_of_bank v hp, State.readReg_of_bank hq, State.readReg_of_bank hq, hp, hq]
  by_cases same : p = q
  · rw [if_pos (congrArg Home.general same), ← same, State.phys_setPhys_self]
  · rw [if_neg fun h => same (Home.general.inj h), State.phys_setPhys_ne s v (Ne.symm same)]

/-- A general register does not reach the program counter. -/
theorem State.readReg_r15_writeReg (s : State) {m m' : Mode} {r : Reg} (v : Word) (hr : r ≠ .r15) :
    (s.writeReg m r v).readReg m' .r15 = s.readReg m' .r15 := by
  obtain ⟨p, hp⟩ := bank_general m hr
  rw [State.writeReg_of_bank v hp]
  rfl

theorem State.readReg_writeReg_r15 (s : State) {m m' : Mode} {r' : Reg} (v : Word) (hr' : r' ≠ .r15) :
    (s.writeReg m .r15 v).readReg m' r' = s.readReg m' r' := by
  obtain ⟨q, hq⟩ := bank_general m' hr'
  rw [State.readReg_of_bank hq, State.readReg_of_bank hq]
  rfl

/-! ### ASR and RRX (R163, R165) -/

theorem shiftAsr_of_given {m : Word} {n : Nat} (given : shiftAmountGiven n = true) :
    shiftAsr m n = some { result := m.sshiftRight n, carry := m.getLsbD (n - 1) } := if_pos given

/-- The sign bit enters at the top. -/
theorem getLsbD_asr (m : Word) (n : Nat) {k : Nat} (hk : k < 32) :
    (m.sshiftRight n).getLsbD k = if k + n < 32 then m.getLsbD (k + n) else m.getLsbD 31 := by
  rw [BitVec.getLsbD_sshiftRight, Nat.add_comm n k]
  simp [hk, BitVec.msb_eq_getLsbD_last]

/-- An arithmetic shift is the floor division by a power of two. -/
theorem asr_toInt (m : Word) (n : Nat) : (m.sshiftRight n).toInt = m.toInt.fdiv (2 ^ n) := by
  rw [BitVec.toInt_sshiftRight, Int.shiftRight_eq_div_pow, Int.fdiv_eq_ediv_of_nonneg _ (by positivity)]
  norm_cast

/-- C enters at bit 31. -/
theorem getLsbD_rrx (m : Word) (c : Bool) {k : Nat} (hk : k < 32) :
    (shiftRrx m c).result.getLsbD k = if k = 31 then c else m.getLsbD (k + 1) := by
  rw [shiftRrx, BitVec.getLsbD_append]
  by_cases top : k = 31
  · simp [top]
  · simp [top, show k < 31 by omega, Nat.add_comm]

/-- RRX with the carry written back, on the word and the carry flag. -/
def rrx (x : Word × Bool) : Word × Bool := ((shiftRrx x.1 x.2).result, (shiftRrx x.1 x.2).carry)

/-- The 33 bits `C : m`. -/
def carryWord (x : Word × Bool) : BitVec 33 := BitVec.ofBool x.2 ++ x.1

theorem getLsbD_carryWord (x : Word × Bool) {k : Nat} (hk : k < 33) :
    (carryWord x).getLsbD k = if k = 32 then x.2 else x.1.getLsbD k := by
  rw [carryWord, BitVec.getLsbD_append]
  by_cases top : k = 32
  · simp [top]
  · simp [top, show k < 32 by omega]

theorem carryWord_injective : Function.Injective carryWord := by
  intro x y h
  have bits (k : Nat) := congrArg (fun z => BitVec.getLsbD z k) h
  refine Prod.ext (BitVec.eq_of_getLsbD_eq fun k hk => ?_) ?_
  · have bit := bits k
    simp only [getLsbD_carryWord _ (show k < 33 by omega), show k ≠ 32 by omega, if_false] at bit
    exact bit
  · have bit := bits 32
    simp only [getLsbD_carryWord _ (show 32 < 33 by decide), if_true] at bit
    exact bit

/-- Bit `k` after one rotation of 33 bits comes from the next place up. -/
theorem getLsbD_rotateRight_one (y : BitVec 33) {k : Nat} (hk : k < 33) :
    (y.rotateRight 1).getLsbD k = y.getLsbD ((k + 1) % 33) := by
  rw [BitVec.getLsbD_rotateRight_of_lt (by decide)]
  by_cases top : k = 32
  · simp [top]
  · have source : (k + 1) % 33 = 1 + k := by omega
    simp [source, show k < 32 by omega]

/-- RRX rotates the 33 bits by one place. -/
theorem carryWord_rrx (x : Word × Bool) : carryWord (rrx x) = (carryWord x).rotateRight 1 := by
  refine BitVec.eq_of_getLsbD_eq fun k hk => ?_
  rw [getLsbD_rotateRight_one _ hk, getLsbD_carryWord _ hk, getLsbD_carryWord _ (Nat.mod_lt _ (by decide))]
  by_cases top : k = 32
  · simp [top, rrx, shiftRrx]
  · rw [if_neg top, rrx, getLsbD_rrx _ _ (by omega), Nat.mod_eq_of_lt (by omega)]
    simp [show k + 1 = 32 ↔ k = 31 by omega]

theorem getLsbD_rotateRight_iterate (y : BitVec 33) (n : Nat) {k : Nat} (hk : k < 33) :
    ((fun z : BitVec 33 => z.rotateRight 1)^[n] y).getLsbD k = y.getLsbD ((k + n) % 33) := by
  induction n generalizing k with
  | zero => simp [Nat.mod_eq_of_lt hk]
  | succ n ih =>
    rw [Function.iterate_succ_apply', getLsbD_rotateRight_one _ hk, ih (Nat.mod_lt _ (by decide))]
    congr 1
    omega

/-- The order of RRX is 33: that many rotations go once around. -/
theorem rrx_iterate_33 (x : Word × Bool) : rrx^[33] x = x := by
  have conj : Function.Semiconj carryWord rrx fun z : BitVec 33 => z.rotateRight 1 := carryWord_rrx
  refine carryWord_injective ((conj.iterate_right 33 x).trans (BitVec.eq_of_getLsbD_eq fun k hk => ?_))
  rw [getLsbD_rotateRight_iterate _ 33 hk, Nat.add_mod_right, Nat.mod_eq_of_lt hk]

/-! ### The domain of the shifts (R166) -/

theorem shiftValue_eq_none {op : ShiftOp} {m : Word} {n : Nat} {c : Bool} :
    shiftValue op m n c = none ↔ ¬(1 ≤ n ∧ n ≤ 31) ∧ ¬(op = .ror ∧ n = 0) := by
  rw [← shiftAmountGiven_iff]
  cases op with
  | lsl => simp [shiftValue, shiftLsl]
  | lsr => simp [shiftValue, shiftLsr]
  | asr => simp [shiftValue, shiftAsr]
  | ror =>
    by_cases zero : n = 0
    · simp [shiftValue, zero]
    · simp [shiftValue, shiftRor, zero]

/-! ### Banks, mode by mode (R23) -/

/-- The number a physical register stands for in some mode. -/
def PhysReg.number : PhysReg → Reg
  | .r0 => .r0 | .r1 => .r1 | .r2 => .r2 | .r3 => .r3 | .r4 => .r4 | .r5 => .r5 | .r6 => .r6 | .r7 => .r7
  | .r8 | .r8Fiq => .r8
  | .r9 | .r9Fiq => .r9
  | .r10 | .r10Fiq => .r10
  | .r11 | .r11Fiq => .r11
  | .r12 | .r12Fiq => .r12
  | .r13 | .r13Fiq | .r13Svc | .r13Abt | .r13Irq | .r13Und => .r13
  | .r14 | .r14Fiq | .r14Svc | .r14Abt | .r14Irq | .r14Und => .r14

/-- The number a home stands for. -/
def Home.number : Home → Reg
  | .general p => p.number
  | .pc => .r15

@[simp] theorem Home.number_bank (m : Mode) (r : Reg) : (bank m r).number = r := by
  cases r <;> cases m <;> rfl

theorem bank_shared {r : Reg} (m m' : Mode) (hr : r ∈ [Reg.r0, .r1, .r2, .r3, .r4, .r5, .r6, .r7, .r15]) :
    bank m r = bank m' r := by
  simp only [List.mem_cons, List.not_mem_nil, or_false] at hr
  rcases hr with rfl | rfl | rfl | rfl | rfl | rfl | rfl | rfl | rfl <;> rfl

theorem Mode.orFiq_eq_iff {m m' : Mode} {usual fiq : PhysReg} (h : usual ≠ fiq) :
    m.orFiq usual fiq = m'.orFiq usual fiq ↔ (m = .fiq ↔ m' = .fiq) := by
  cases m <;> cases m' <;> simp [Mode.orFiq, h, h.symm]

theorem bank_fiq {r : Reg} (m m' : Mode) (hr : r ∈ [Reg.r8, .r9, .r10, .r11, .r12]) :
    bank m r = bank m' r ↔ (m = .fiq ↔ m' = .fiq) := by
  simp only [List.mem_cons, List.not_mem_nil, or_false] at hr
  rcases hr with rfl | rfl | rfl | rfl | rfl <;> simp only [bank, Home.general.injEq] <;>
    exact Mode.orFiq_eq_iff (by decide)

/-- The two modes of one column of R23's table. -/
theorem Mode.r13_eq_iff (m m' : Mode) :
    m.r13 = m'.r13 ↔ m = m' ∨ (m ∈ [Mode.user, .system] ∧ m' ∈ [Mode.user, .system]) := by
  cases m <;> cases m' <;> decide

theorem Mode.r14_eq_iff (m m' : Mode) :
    m.r14 = m'.r14 ↔ m = m' ∨ (m ∈ [Mode.user, .system] ∧ m' ∈ [Mode.user, .system]) := by
  cases m <;> cases m' <;> decide

theorem bank_ownStack {r : Reg} (m m' : Mode) (hr : r ∈ [Reg.r13, .r14]) :
    bank m r = bank m' r ↔ m = m' ∨ (m ∈ [Mode.user, .system] ∧ m' ∈ [Mode.user, .system]) := by
  simp only [List.mem_cons, List.not_mem_nil, or_false] at hr
  rcases hr with rfl | rfl
  · exact (Iff.intro Home.general.inj (congrArg Home.general)).trans (Mode.r13_eq_iff m m')
  · exact (Iff.intro Home.general.inj (congrArg Home.general)).trans (Mode.r14_eq_iff m m')

theorem Mode.saved_eq_iff (m m' : Mode) :
    m.saved = m'.saved ↔ m = m' ∨ (m ∈ [Mode.user, .system] ∧ m' ∈ [Mode.user, .system]) := by
  cases m <;> cases m' <;> decide

/-! ### Addresses (R190 to R193; 30_encoding.md R103, R104) -/

theorem State.offset_scaled {s : State} {m : Mode} {rm : Reg} {op : ShiftOp} {n : Nat} {r : Shifted}
    (h : shiftValue op (s.readReg m rm) n (Psr.c s.cpsr) = some r) : s.offset m (.scaled rm op n) = some r.result := by
  simp only [State.offset, h]

theorem wordOffset_register {field : BitVec 12} (bit4 : field.getLsbD 4 = false) (plain : field.extractLsb' 5 7 = 0#7) :
    wordOffset true field = some (.register (fieldRm field)) := by
  rw [wordOffset, bit4, fieldShift_of_plain plain]
  rfl

theorem wordOffset_scaled {field : BitVec 12} (bit4 : field.getLsbD 4 = false) (shifted : field.extractLsb' 5 7 ≠ 0#7) :
    wordOffset true field
      = some (.scaled (fieldRm field) (ShiftOp.ofField (field.extractLsb' 5 2)) (field.extractLsb' 7 5).toNat) := by
  rw [wordOffset, bit4, fieldShift_of_shifted shifted]
  rfl

theorem halfwordOffset_eq (hi lo : BitVec 4) :
    halfwordOffset hi lo = .immediate (BitVec.ofNat 32 (16 * hi.toNat + lo.toNat)) := by
  refine congrArg Offset.immediate (BitVec.eq_of_toNat_eq ?_)
  rw [BitVec.toNat_setWidth, BitVec.toNat_append, BitVec.toNat_ofNat, Nat.shiftLeft_eq,
    Nat.mul_comm hi.toNat, ← Nat.two_pow_add_eq_or_of_lt lo.isLt]

/-! ### Memory accesses (R62, R65, R69) -/

/-- The bytes of the low part join to it. -/
theorem getLsbD_joinLittle_splitLittle (n : Nat) (v : Word) {k : Nat} (hk : k < 32) :
    (joinLittle (splitLittle n v)).getLsbD k = (decide (k < 8 * n) && v.getLsbD k) := by
  induction n generalizing v k with
  | zero => simp [splitLittle, joinLittle]
  | succ n ih =>
    rw [splitLittle, joinLittle, BitVec.getLsbD_or, BitVec.getLsbD_shiftLeft, BitVec.getLsbD_setWidth, BitVec.getLsbD_setWidth]
    by_cases low : k < 8
    · simp [hk, low, show k < 8 * (n + 1) by omega]
    · rw [ih _ (by omega), BitVec.getLsbD_ushiftRight]
      simp [hk, low, show 8 + (k - 8) = k by omega, show k - 8 < 8 * n ↔ k < 8 * (n + 1) by omega]

theorem joinBytes_splitBytes_low (n : Nat) (v : Word) :
    joinBytes Config.byteOrder (splitBytes Config.byteOrder n v) = v &&& BitVec.ofNat 32 (2 ^ (8 * n) - 1) := by
  refine BitVec.eq_of_getLsbD_eq fun k hk => ?_
  refine (getLsbD_joinLittle_splitLittle n v hk).trans ?_
  rw [BitVec.getLsbD_and, BitVec.getLsbD_ofNat, Nat.testBit_two_pow_sub_one, Bool.and_comm]
  simp [hk]

/-- A misaligned access is refused, whatever its direction. -/
theorem State.misaligned_refused {s : State} {w : Width} {addr : Word} (v : Word) (h : addr.toNat % w.bytes ≠ 0) :
    s.memRead w addr = .error .misalignedAccess ∧ s.memWrite w addr v = .error .misalignedAccess := by
  have misaligned : w.aligned addr = false := beq_eq_false_iff_ne.mpr h
  simp [State.memRead, State.memWrite, misaligned]

theorem Width.aligned_byte (addr : Word) : Width.aligned .byte addr = true := beq_iff_eq.mpr (Nat.mod_one _)

theorem State.memWrite_of_aligned {s : State} {w : Width} {addr : Word} (v : Word) (aligned : w.aligned addr = true) :
    s.memWrite w addr v = .ok { s with mem := Memory.storeBytes addr (splitBytes Config.byteOrder w.bytes v) s.mem } :=
  if_pos aligned

/-- An aligned read is refused only for a byte that nothing has placed. -/
theorem State.memRead_ne_misaligned {s : State} {w : Width} {addr : Word} (aligned : w.aligned addr = true) :
    s.memRead w addr ≠ .error .misalignedAccess := by
  rw [State.memRead, if_pos aligned]
  cases Memory.loadBytes s.mem addr w.bytes <;> simp

end Sys2Proof.Machine

namespace Sys2Proof.Proofs.OtherFamily

open Sys2Proof.Machine

/-- Settles O27: read after write on the registers the banks name. -/
theorem registerWritesReachOneRegister : Obligations.RegisterWritesReachOneRegister := fun s _ _ _ _ v =>
  ⟨s.readReg_writeReg v, s.readReg_r15_writeReg v, rfl, s.readReg_writeReg_r15 v⟩

/-- Settles O28: the three ranges of numbers, and the number a home stands for as the left inverse of `bank`. -/
theorem banksOfTheModes : Obligations.BanksOfTheModes := by
  intro m m' r
  refine ⟨bank_shared m m', bank_fiq m m', bank_ownStack m m', fun r' h => ?_, Mode.saved_eq_iff m m', ?_⟩
  · have numbers := congrArg Home.number h
    rwa [Home.number_bank, Home.number_bank] at numbers
  · rw [Mode.saved_eq_none]
    simp

/-- Settles O53: the bits of an arithmetic shift (`getLsbD_asr`) and its floor (`asr_toInt`). -/
theorem arithmeticShiftRight : Obligations.ArithmeticShiftRight := fun m n pos le =>
  ⟨_, shiftAsr_of_given (shiftAmountGiven_iff.mpr ⟨pos, le⟩), fun _ hk => getLsbD_asr m n hk, rfl, asr_toInt m n⟩

/-- Settles O55: RRX is one rotation of the 33 bits `C : m` (`carryWord_rrx`), so 33 of them go once around. -/
theorem rotateRightExtended : Obligations.RotateRightExtended := by
  intro m c
  refine ⟨rfl, getLsbD_rrx m c (by decide), fun k hk => ?_, rfl, carryWord_rrx (m, c), rrx_iterate_33 (m, c), fun _ _ _ => rfl⟩
  rw [getLsbD_rrx m c (by omega), if_neg (by omega)]

/-- Settles O56: `shiftValue_eq_none`; an amount in a register has no value by definition. -/
theorem shiftsOutsideTheirDomain : Obligations.ShiftsOutsideTheirDomain := fun _ _ _ _ =>
  ⟨shiftValue_eq_none, fun _ _ _ _ => rfl⟩

/-- Settles O57: each form is evaluated by definition once its offset has a value; the fields name the forms by their layout. -/
theorem addressingModesOfTheSource : Obligations.AddressingModesOfTheSource := by
  intro s m rn rm imm op n up r c p u b w l sb h rd field hi lo
  refine ⟨rfl, rfl, rfl, rfl, rfl, rfl, fun shifted => ?_, rfl, fun bit4 plain => ?_, fun bit4 shifted => ?_, rfl, ?_⟩
  · have offset := State.offset_scaled shifted
    constructor
    · simp [State.address, AddressForm.listed, offset, indexed]
    · simp [State.address, AddressForm.listed, offset, indexed]
  · rw [transferAddress, wordOffset_register bit4 plain]
    rfl
  · rw [transferAddress, wordOffset_scaled bit4 shifted]
    rfl
  · rw [transferAddress, halfwordOffset_eq]
    rfl

/-- Settles O58: the bytes placed are loaded back and join to the low part of the value; every other byte is as before. -/
theorem memoryReadsWhatWasWritten : Obligations.MemoryReadsWhatWasWritten := by
  intro s w addr v aligned
  have bytes : (splitBytes Config.byteOrder w.bytes v).length = w.bytes := splitLittle_length _ _
  have few : (splitBytes Config.byteOrder w.bytes v).length ≤ 2 ^ 32 := by rw [bytes]; cases w <;> decide
  refine ⟨_, State.memWrite_of_aligned v aligned, ?_, fun k hk => ?_, fun a outside => ?_, rfl⟩
  · have loaded := Memory.loadBytes_storeBytes s.mem (splitBytes Config.byteOrder w.bytes v) addr few
    rw [bytes] at loaded
    simp only [State.memRead, aligned, if_true, loaded, joinBytes_splitBytes_low]
  · have hk : k < (splitBytes Config.byteOrder w.bytes v).length := by rwa [bytes]
    rw [Memory.lookup_storeBytes _ addr s.mem few k hk]
    exact congrArg some (splitLittle_getElem w.bytes v k hk)
  · exact Memory.lookup_storeBytes_ne _ addr s.mem a fun k hk => outside k (by rwa [bytes] at hk)

/-- Settles O59: `State.misaligned_refused`, and a byte address is always aligned. -/
theorem misalignedAccessIsRefused : Obligations.MisalignedAccessIsRefused := fun _ addr v =>
  ⟨State.misaligned_refused (w := .word) v, State.misaligned_refused (w := .half) v,
    State.memRead_ne_misaligned (Width.aligned_byte addr), _, State.memWrite_of_aligned v (Width.aligned_byte addr)⟩

end Sys2Proof.Proofs.OtherFamily
end
